-- ==== Sys2Proof/Word.lean ====
section
/-! DEFINITION. The word and byte types of BLKCODEC (spec/00_scope.md R5) and nothing else. -/

namespace Sys2Proof

/-- A data value of a block: an unsigned 32-bit integer, `VW = 32` (R5). Nothing in this hardware is signed. -/
abbrev Word := BitVec 32

/-- A byte of a compressed block, or of a port that is 8 bits wide (R36, R60, R62). -/
abbrev Byte := BitVec 8

end Sys2Proof
end

