-- ==== Sys2Proof/Config.lean ====
section
/-! DEFINITION. The build parameters of a unit (spec/00_scope.md section 4, R4 to R8) and the free values. -/

namespace Sys2Proof

/-- `PACKORDER`, the bit order of the packed payload (R53, D1). -/
inductive PackOrder where
  /-- Least significant bit first in a little-endian byte stream: the spec's default. -/
  | lsbFirstLE
  /-- The other natural order: most significant bit of a value first, filling each byte from its top bit.
  DEDUCED from the columns "if MSB-first" of spec/95_test_vectors.md section 2.3 (log entry 3). -/
  | msbFirst
deriving DecidableEq, Repr

/-- What a build of the unit fixes, for its whole life (R4, R7, R8, R24, R53, R54).  They are parameters and
no state: no step changes them. -/
structure Params where
  /-- `N`, the number of values in a block (R4). -/
  n : Nat
  /-- `DECCAP`, the number of slots of `DEC.val` (R7). -/
  decCap : Nat
  /-- `PACKORDER` (R53). -/
  packOrder : PackOrder
  /-- `PADBIT`, the value the encoder gives the unused bits of the last payload byte (R54, I4). -/
  padBit : Bool
  /-- `LW`, the width in bits of the ports `CMD.len` and `CMD.clen` (R8, R61). -/
  lw : Nat
deriving DecidableEq, Repr

/-- The build with block size `n` and every other parameter at its default (R7: `DECCAP = 4N + 1`; R53; R54).
`lw := 32` is a DESIGN CHOICE, unsafe: the spec leaves `LW` open (log entry 4). -/
def Params.ofN (n : Nat) : Params :=
  { n := n, decCap := 4 * n + 1, packOrder := .lsbFirstLE, padBit := false, lw := 32 }

/-- The default build, `N = 128` (R4, D2). -/
def Params.default : Params := Params.ofN 128

/-- FREE VALUE: the content of word slot `slot` of a buffer that draw number `draw` left unspecified (R121 (c)).
It has no body: nothing can be proved of its value (log entry 6). -/
opaque Config.freeWord (draw slot : Nat) : Word

/-- FREE VALUE: the content of byte `slot` of `ENC.out` after draw number `draw` (R121 (c); log entry 6). -/
opaque Config.freeByte (draw slot : Nat) : Byte

end Sys2Proof
end

