-- ==== Sys2Proof/Syntax.lean ====
section
/-! DEFINITION. The four host commands, the command port, the response and the host's events, as data
(spec/30_encoding.md section 2, spec/60_exceptions.md R111, spec/70_reset_and_hazards.md). -/

namespace Sys2Proof

/-- The commands, one constructor per row of spec/opcode_table.json (R60).  A command word carries no operand
(R64): the operands travel on the operand ports (`Command`). -/
inductive Instr where
  /-- `CSORT`: compress, sorted path (R90). -/
  | csort
  /-- `CUNSORT`: compress, unsorted path (R91). -/
  | cunsort
  /-- `USORT`: uncompress, sorted path (R100). -/
  | usort
  /-- `UUNSORT`: uncompress, unsorted path (R101). -/
  | uunsort
deriving DecidableEq, Repr

/-- The two parts of the unit a command may be addressed to (R10, R60: field `DIR`). -/
inductive Target where
  /-- The encoder `ENC`. -/
  | enc
  /-- The decoder `DEC`. -/
  | dec
deriving DecidableEq, Repr

/-- The seven error codes (R111). -/
inductive ErrorCode where
  /-- `0x01`: `len` is not `N` (R112). -/
  | lengthMismatch
  /-- `0x02`: `len` is 0 on the unsorted path (R113). -/
  | emptyInput
  /-- `0x03`: a value is below its predecessor (R114). -/
  | precedenceViolation
  /-- `0x04`: no width byte, or not all of the payload (R115). -/
  | truncatedInput
  /-- `0x05`: a width byte of 33 to 255 (R116). -/
  | invalidBitWidth
  /-- `0x06`: a running sum does not fit 32 bits (R117). -/
  | accumulatorOverflow
  /-- `0x07`: a reserved command word (R118). -/
  | illegalCommand
deriving DecidableEq, Repr

/-- The response of a command (R62). -/
inductive Response where
  /-- `OK(n)`: `n` bytes written, or consumed. -/
  | ok (n : Nat)
  /-- `ERR(code)`. -/
  | err (e : ErrorCode)
deriving DecidableEq, Repr

/-- What the host drives on the command port for one command (R60, R61).  `CMD.len` and `CMD.clen` are the
lengths of the two sequences (R31, R32, R33). -/
structure Command where
  /-- `CMD.op`. -/
  op : Byte
  /-- `CMD.offset`, the seed. -/
  offset : Word
  /-- `CMD.vals`, the word operand `VIN`. -/
  vals : List Word
  /-- `CMD.cbytes`, the byte operand `CIN`. -/
  cbytes : List Byte
deriving DecidableEq, Repr

/-- What a host may do to the unit against the rules it must keep; the spec gives each no meaning (U5 to U7). -/
inductive HostBreach where
  /-- It presents a command before the previous one has responded (R146). -/
  | secondCommand
  /-- It changes `VIN` or `CIN` during a command (R147). -/
  | operandChanged
  /-- It resets the unit while a command is executing (R142). -/
  | resetDuringCommand
deriving DecidableEq, Repr

/-- One entry of the host's list (R152): what the host does next to the unit. -/
inductive HostEvent where
  /-- Present a command and wait for its response. -/
  | present (c : Command)
  /-- Reset the unit between two commands (R141). -/
  | reset
  /-- Break one of the host's rules. -/
  | breach (b : HostBreach)
deriving DecidableEq, Repr

end Sys2Proof
end

