-- ==== Sys2Proof/Decode.lean ====
section
/-! DEFINITION. The command word: decoder, encoder, and the names and one-line text of a command
(spec/30_encoding.md R60, R63, R66; spec/opcode_table.json). -/

namespace Sys2Proof

/-- Why a command word is no command. -/
inductive DecodeError where
  /-- One of the reserved bits `7:2` is set (R63). -/
  | reservedWord (op : Byte)
deriving DecidableEq, Repr

/-- Field `RSV` of a command word, bits `7:2` (R60). -/
def opRsv (op : Byte) : BitVec 6 := op.extractLsb' 2 6

/-- Field `DIR`, bit 1: set for uncompress (R60). -/
def opDir (op : Byte) : Bool := op.getLsbD 1

/-- Field `MODE`, bit 0: set for the unsorted path (R60). -/
def opMode (op : Byte) : Bool := op.getLsbD 0

/-- Decode a command word (R60, R63). -/
def decodeOp (op : Byte) : Except DecodeError Instr :=
  if opRsv op ≠ 0 then .error (.reservedWord op)
  else
    match opDir op, opMode op with
    | false, false => .ok .csort
    | false, true => .ok .cunsort
    | true, false => .ok .usort
    | true, true => .ok .uunsort

/-- The command word of a command, from the table of R60. -/
def encode : Instr → Byte
  | .csort => 0x00
  | .cunsort => 0x01
  | .usort => 0x02
  | .uunsort => 0x03

/-- The part of the unit a command is addressed to (R60). -/
def Instr.target : Instr → Target
  | .csort => .enc
  | .cunsort => .enc
  | .usort => .dec
  | .uunsort => .dec

/-- The 8-bit command word made of the low `nbits` bits of `w`; the bits above them are 0. -/
def tableWord (nbits w : Nat) : Nat := w % 2 ^ nbits

/-- The instruction the decoder reads from an opcode-table word; a word wider than the 8-bit command port is none. -/
def decodeTableWord (nbits w : Nat) : Option Instr :=
  if 256 ≤ tableWord nbits w then none
  else
    match decodeOp (BitVec.ofNat 8 (tableWord nbits w)) with
    | .ok i => some i
    | .error _ => none

/-- The mnemonic of a command (R66, spec/opcode_table.json). -/
def Instr.mnemonic : Instr → String
  | .csort => "CSORT"
  | .cunsort => "CUNSORT"
  | .usort => "USORT"
  | .uunsort => "UUNSORT"

/-- The document's names of a command, accepted beside the mnemonic (R66, `90_conflicts.md` C10). -/
def Instr.otherNames : Instr → List String
  | .csort => ["compress_sorted", "encode_sorted"]
  | .cunsort => ["compress_unsorted", "encode_unsorted"]
  | .usort => ["uncompress_sorted", "decode_sorted"]
  | .uunsort => ["uncompress_unsorted", "decode_unsorted"]

/-- The command a name stands for (R66). -/
def Instr.ofName (name : String) : Option Instr :=
  [Instr.csort, .cunsort, .usort, .uunsort].find? fun i => (i.mnemonic :: i.otherNames).contains name

/-- One hexadecimal digit, upper case. -/
def hexDigit (d : Nat) : Char := "0123456789ABCDEF".toList.getD d '?'

/-- A byte as two hexadecimal digits (R66). -/
def byteText (b : Byte) : String := String.ofList [hexDigit (b.toNat / 16), hexDigit (b.toNat % 16)]

/-- The error's name in a response text (R111). -/
def ErrorCode.name : ErrorCode → String
  | .lengthMismatch => "LengthMismatch"
  | .emptyInput => "EmptyInput"
  | .precedenceViolation => "PrecedenceViolation"
  | .truncatedInput => "TruncatedInput"
  | .invalidBitWidth => "InvalidBitWidth"
  | .accumulatorOverflow => "AccumulatorOverflow"
  | .illegalCommand => "IllegalCommand"

/-- `OK(n)` or `ERR(name)` (R66). -/
def Response.text : Response → String
  | .ok n => "OK(" ++ toString n ++ ")"
  | .err e => "ERR(" ++ e.name ++ ")"

/-- The operands of a command as text: bytes in hexadecimal, words in decimal, the seed on the sorted path (R66). -/
def operandText (i : Instr) (c : Command) : String :=
  let values := "[" ++ String.intercalate ", " (c.vals.map fun v => toString v.toNat) ++ "]"
  let bytes := "[" ++ String.intercalate " " (c.cbytes.map byteText) ++ "]"
  let seed := ", " ++ toString c.offset.toNat
  match i with
  | .csort => values ++ seed
  | .cunsort => values
  | .usort => bytes ++ seed
  | .uunsort => bytes

/-- The one-line text of a command and its response (R66). -/
def lineText (i : Instr) (c : Command) (r : Response) : String :=
  i.mnemonic ++ " " ++ operandText i c ++ " -> " ++ r.text

end Sys2Proof
end

