-- ==== Sys2Proof/WellFormed.lean ====
section
/-! DEFINITION. What makes a build and a presented command well formed.  An `Instr` has no operand field (R64), so
every `Instr` is well formed; what can be ill formed is the build and the operands on the port. -/

namespace Sys2Proof

/-- A legal build: `N >= 1` (R4) and `DECCAP >= N` (R7). -/
def Params.wf (p : Params) : Bool := decide (1 ≤ p.n) && decide (p.n ≤ p.decCap)

/-- The operand that command `i` uses fits its length port: a natural below `2^LW` (R61).  An unused port has no
effect (R61) and is not checked. -/
def Command.wf (p : Params) (i : Instr) (c : Command) : Bool :=
  match i with
  | .csort => decide (c.vals.length < 2 ^ p.lw)
  | .cunsort => decide (c.vals.length < 2 ^ p.lw)
  | .usort => decide (c.cbytes.length < 2 ^ p.lw)
  | .uunsort => decide (c.cbytes.length < 2 ^ p.lw)

end Sys2Proof
end

