-- ==== Sys2Proof/Machine/State.lean ====
section
/-! DEFINITION. The state of BLKCODEC (spec/10_state.md) as plain data, the host's side of the ports, the reasons a step
can stop, and the state after reset. -/

namespace Sys2Proof.Machine

/-- A byte space of the unit, index 0 first (R33: no space has addresses, a byte is reached by its index).  Every
index of the space is listed, so equal contents are equal data. -/
abbrev Memory := List Byte

/-- The encoder part `ENC` (R10). -/
structure Enc where
  /-- `ENC.block`, the scratch block: `N` slots of 32 bits (R11). -/
  block : List Word
  /-- `ENC.out`, the output buffer: `4N + 1` bytes (R12). -/
  out : Memory
  /-- `ENC.out_len`: bytes of the compressed block now held in `ENC.out` (R13). -/
  outLen : Nat
deriving DecidableEq, Repr

/-- The decoder part `DEC` (R10). -/
structure Dec where
  /-- `DEC.val`, the value buffer: `DECCAP` slots of 32 bits (R15). -/
  val : List Word
  /-- `DEC.vlen`: the number of valid slots (R16). -/
  vlen : Nat
deriving DecidableEq, Repr

/-- The whole machine: the unit (`enc`, `dec`: the five state items of R10), its build, and the host's side of the
command and response ports, which the spec gives the host and a deterministic step must hold (log entries 1, 2). -/
structure State where
  /-- The build parameters (R24: parameters of the step, no state; read, never written; log entry 1). -/
  params : Params
  /-- The encoder. -/
  enc : Enc
  /-- The decoder. -/
  dec : Dec
  /-- The command port: the command now, or last, presented (R61); log entry 2. -/
  port : Command
  /-- What the host will still do, first entry next (R152); log entry 2. -/
  pending : List HostEvent
  /-- The responses given so far, first one first; the last is what the response port shows (R62, R152). -/
  rsps : List Response
  /-- `cpc`, the host's index into its command list (R20, R152). -/
  cpc : Nat
  /-- The model's own counter of draws of free values (log entry 6). -/
  draws : Nat
deriving DecidableEq, Repr

/-- Reasons the machine stops.  No rule of the spec stops the unit (R133: "Stuck: never"): each constructor is the
bounds check of an internal access that the spec proves never fails, so each is unreachable from a well-formed
state; stopping is safe. -/
inductive Fault where
  /-- Raised by the byte write into `ENC.out` when the index is outside the buffer (R38, R119: "treat the write as
  a fault"); safe. -/
  | outBufferOverrun
  /-- Raised by a slot write into `ENC.block` or `DEC.val` outside the buffer (R11, R15); safe. -/
  | slotOverrun
  /-- Raised by a byte read of `CIN` at an index not below `clen` (R37: never happens); safe. -/
  | operandOverread
deriving DecidableEq, Repr

/-- What the machine gives no meaning. -/
inductive Refusal where
  /-- Raised by `exec` for an instruction that has no meaning yet; safe.  No arm uses it. -/
  | notModelled (mnemonic : String)
  /-- Raised by `step`: a presented operand's length does not fit the `LW`-bit length port (U10: "refuse"); safe. -/
  | operandTooLong
  /-- Raised by `step`: the host broke a rule about which the spec says nothing (R142, R146, R147; U5 to U7:
  "refuse (no step)"); safe. -/
  | hostBreach (b : HostBreach)
deriving DecidableEq, Repr

/-- `ENC` after reset in the build `p` (R23): the length is 0.  The buffers' contents are unspecified by the spec;
zeros are a DESIGN CHOICE, unsafe (log entry 5). -/
def Enc.reset (p : Params) : Enc :=
  { block := List.replicate p.n 0, out := List.replicate (4 * p.n + 1) 0, outLen := 0 }

/-- `DEC` after reset in the build `p` (R23); zeros as in `Enc.reset` (log entry 5). -/
def Dec.reset (p : Params) : Dec :=
  { val := List.replicate p.decCap 0, vlen := 0 }

/-- An undriven command port (log entry 2). -/
def undrivenPort : Command := { op := 0, offset := 0, vals := [], cbytes := [] }

/-- The machine right after reset in the build `p`, with a host that has nothing to do yet. -/
def State.resetWith (p : Params) : State :=
  { params := p, enc := Enc.reset p, dec := Dec.reset p, port := undrivenPort,
    pending := [], rsps := [], cpc := 0, draws := 0 }

/-- The machine right after reset (R23, R140), in the default build (R4: `N = 128`). -/
def State.reset : State := State.resetWith Params.default

end Sys2Proof.Machine
end

