-- ==== Sys2Proof/Machine/Operands.lean ====
section
/-! DEFINITION. The operands of a command, the lengths of a compressed block, and where a bit of a value lies in the
packed payload (spec/20_memory.md, spec/30_encoding.md). -/

namespace Sys2Proof.Machine

/-- `CMD.len`, the length of the word operand (R31, R61). -/
def len (s : State) : Nat := s.port.vals.length

/-- `VIN`, the word operand of an encode command (R31). -/
def vin (s : State) : List Word := s.port.vals

/-- `CMD.clen`, the length of the byte operand (R32, R61). -/
def clen (s : State) : Nat := s.port.cbytes.length

/-- `CIN`, the byte operand of a decode command (R32). -/
def cin (s : State) : List Byte := s.port.cbytes

/-- `CMD.offset`, the seed of a sorted-path command, taken as it is (R61, R64). -/
def seed (s : State) : Word := s.port.offset

/-- `PLEN(w)`, the payload length in bytes of a block of `n` values at width `w` (R52). -/
def plen (n w : Nat) : Nat := (n * w + 7) / 8

/-- `BLEN(w)`, the block length in bytes (R52). -/
def blen (n w : Nat) : Nat := 1 + plen n w

/-- `OUTCAP`, the capacity of `ENC.out` in bytes (R6). -/
def outCap (n : Nat) : Nat := 4 * n + 1

/-- `WMAX`, the largest legal bit-width (R51). -/
def wMax : Nat := 32

/-- The bit of its byte that bit number `p` of the payload is: bit `p mod 8` from the least significant end in the
spec's order (R53), from the most significant end in the other (log entry 3). -/
def byteBit (o : PackOrder) (p : Nat) : Nat :=
  match o with
  | .lsbFirstLE => p % 8
  | .msbFirst => 7 - p % 8

/-- Which bit of a `w`-bit value lies at place `k` of its field: bit `k` in the spec's order (R53), counted from the
most significant bit in the other (log entry 3). -/
def valueBit (o : PackOrder) (w k : Nat) : Nat :=
  match o with
  | .lsbFirstLE => k
  | .msbFirst => w - 1 - k

/-- `x` with bit `i` made `b`: the assignment `x[i] <- b` of the pseudocode. -/
def setBit {m : Nat} (x : BitVec m) (i : Nat) (b : Bool) : BitVec m :=
  if b then x ||| BitVec.twoPow m i else x &&& ~~~(BitVec.twoPow m i)

/-- A byte whose eight bits all are the build's pad bit (R54). -/
def padByte (p : Params) : Byte := if p.padBit then 0xFF else 0x00

/-- The payload view `CIN[1 .. BLEN(w))` of a decode command (R100, R101). -/
def payload (n w : Nat) (bytes : List Byte) : List Byte := (bytes.drop 1).take (plen n w)

end Sys2Proof.Machine
end

