-- ==== Sys2Proof/Machine/Flags.lean ====
section
/-! DEFINITION. What stands for status in this unit.  It has no flags, no condition codes and no sticky error bit
(R21); its only status registers are the two length registers (R22), and a command's outcome is its response (R62). -/

namespace Sys2Proof.Machine

/-- The number of an error code (R111). -/
def errorNumber : ErrorCode → Byte
  | .lengthMismatch => 0x01
  | .emptyInput => 0x02
  | .precedenceViolation => 0x03
  | .truncatedInput => 0x04
  | .invalidBitWidth => 0x05
  | .accumulatorOverflow => 0x06
  | .illegalCommand => 0x07

/-- `RSP.code` (R62). -/
def rspCode : Response → Byte
  | .ok _ => 0x00
  | .err e => errorNumber e

/-- `RSP.n`: bytes written or consumed, 0 on an error (R62). -/
def rspN : Response → Nat
  | .ok n => n
  | .err _ => 0

/-- `ENC` with `ENC.block` replaced. -/
def State.withBlock (s : State) (block : List Word) : State := { s with enc := { s.enc with block := block } }

/-- `ENC` with a new block in `ENC.out` and its length in `ENC.out_len` (R13). -/
def State.withBlockOut (s : State) (out : Memory) (n : Nat) : State :=
  { s with enc := { s.enc with out := out, outLen := n } }

/-- `DEC` with new slots and `DEC.vlen` (R16). -/
def State.withValues (s : State) (val : List Word) (n : Nat) : State := { s with dec := { val := val, vlen := n } }

/-- End the command with its one response (R62); the host's index moves on after `OK` and `ERR` alike (R20, R152). -/
def State.respond (s : State) (r : Response) : State := { s with rsps := s.rsps ++ [r], cpc := s.cpc + 1 }

/-- The response port: the response of the latest command (R62). -/
def State.response (s : State) : Option Response := s.rsps.getLast?

/-- The encoder view `ENC.out[0 .. ENC.out_len)` (R14). -/
def State.view (s : State) : List Byte := s.enc.out.take s.enc.outLen

/-- The decoder accessor `DEC.val[0 .. DEC.vlen)` (R17). -/
def State.accessor (s : State) : List Word := s.dec.val.take s.dec.vlen

end Sys2Proof.Machine
end

