-- ==== Sys2Proof/Machine/Ops.lean ====
section
/-! DEFINITION. The named operations: bounds-checked accesses to the buffers, the internal primitives of
spec/40_primitives.md, and raising an error (spec/60_exceptions.md R121) with the way a command ends. -/

namespace Sys2Proof.Machine

/-- Why the pseudocode of a command leaves before its end: an error it raises (R110), or an internal access outside
its buffer, which never happens in a well-formed state (R119, R37). -/
inductive Stop where
  /-- `raise e`. -/
  | raised (e : ErrorCode)
  /-- The bounds check of an access failed. -/
  | broken (f : Fault)
deriving DecidableEq, Repr

/-- The result of a piece of a command's pseudocode. -/
abbrev Run (α : Type) := Except Stop α

/-! ## Buffers -/

/-- The form of a byte space of `cap` bytes: every index is listed (R12). -/
def Memory.wf (cap : Nat) (m : Memory) : Bool := m.length == cap

/-- `MemWrite(ENC.out, j, 1, b)` (R36, R38). -/
def memWrite (m : Memory) (j : Nat) (b : Byte) : Run Memory :=
  if j < m.length then .ok (m.set j b) else .error (.broken .outBufferOverrun)

/-- `MemRead(CIN, j, 1)` (R36, R37). -/
def memRead (bytes : List Byte) (j : Nat) : Run Byte :=
  match bytes[j]? with
  | some b => .ok b
  | none => .error (.broken .operandOverread)

/-- Write the values into slots `0, 1, …` of a word buffer, one slot each; the other slots keep what they hold
(R11, R15, R36). -/
def storeSlots (slots values : List Word) : Run (List Word) :=
  if values.length ≤ slots.length then .ok (values ++ slots.drop values.length) else .error (.broken .slotOverrun)

/-! ## Bit-width estimator -/

/-- The loop of `BITWIDTH`, `fuel` rounds at most: `while m >= 2^b: b <- b + 1` (R70). -/
def bitWidthLoop (m : Nat) : Nat → Nat → Nat
  | 0, b => b
  | fuel + 1, b => if 2 ^ b ≤ m then bitWidthLoop m fuel (b + 1) else b

/-- `BITWIDTH(m)` for an unsigned 64-bit `m` (R70); 64 rounds are enough, as `m < 2^64`. -/
def bitWidth (m : BitVec 64) : Nat := bitWidthLoop m.toNat 64 0

/-! ## Width byte -/

/-- `HDR.put(w)`: the width as an unsigned byte at index 0 of `ENC.out` (R71). -/
def hdrPut (w : Nat) (out : Memory) : Run Memory := memWrite out 0 (BitVec.ofNat 8 w)

/-- `HDR.get()` on the byte operand, with its three checks in the order of R72. -/
def hdrGet (n : Nat) (bytes : List Byte) : Run Nat :=
  if bytes.length < 1 then .error (.raised .truncatedInput)
  else do
    let b ← memRead bytes 0
    if wMax < b.toNat then .error (.raised .invalidBitWidth)
    else if bytes.length < blen n b.toNat then .error (.raised .truncatedInput)
    else .ok b.toNat

/-! ## Bit writer -/

/-- The bit writer in use: its sink `ENC.out`, the number of bits written, and the partial byte (R73, R19). -/
structure Writer where
  /-- The sink. -/
  out : Memory
  /-- Bits written so far. -/
  wpos : Nat
  /-- The partial byte. -/
  cur : Byte
deriving DecidableEq, Repr

/-- `BITW.open()` (R73).  The partial byte starts as pad bits: zeros in the spec's build (R54, log entry 3). -/
def bitwOpen (p : Params) (out : Memory) : Writer := { out := out, wpos := 0, cur := padByte p }

/-- One round of the loop of `BITW.write`: append one bit, and store the byte it completes (R73). -/
def bitwBit (p : Params) (k : Writer) (b : Bool) : Run Writer :=
  let cur := setBit k.cur (byteBit p.packOrder k.wpos) b
  let wpos := k.wpos + 1
  if wpos % 8 = 0 then do
    let out ← memWrite k.out (wpos / 8) cur
    .ok { out := out, wpos := wpos, cur := padByte p }
  else .ok { k with wpos := wpos, cur := cur }

/-- The `w` bits of a value in the order in which they enter the bit stream (R53, R73). -/
def fieldBits (o : PackOrder) (w : Nat) (v : Word) : List Bool :=
  (List.range w).map fun k => v.getLsbD (valueBit o w k)

/-- `BITW.write(v, w)` (R73). -/
def bitwWrite (p : Params) (w : Nat) (k : Writer) (v : Word) : Run Writer :=
  (fieldBits p.packOrder w v).foldlM (bitwBit p) k

/-- `BITW.close()`: flush a partial byte and report the payload bytes written (R74). -/
def bitwClose (k : Writer) : Run (Memory × Nat) :=
  if k.wpos % 8 ≠ 0 then do
    let out ← memWrite k.out (1 + k.wpos / 8) k.cur
    .ok (out, (k.wpos + 7) / 8)
  else .ok (k.out, (k.wpos + 7) / 8)

/-- The width byte, then the values packed at width `w`, as both encoder commands write them; with the payload
bytes written (R79, R91). -/
def emitBlock (p : Params) (w : Nat) (values : List Word) (out : Memory) : Run (Memory × Nat) := do
  let out ← hdrPut w out
  let k ← values.foldlM (bitwWrite p w) (bitwOpen p out)
  bitwClose k

/-! ## The payload as a function of the values -/

/-- Bit number `q` of the payload that holds the values `d` at width `w`: a value bit, or a pad bit (R53, R54, R75). -/
def payloadBit (p : Params) (w : Nat) (d : List Word) (q : Nat) : Bool :=
  if q < d.length * w then (d.getD (q / w) 0).getLsbD (valueBit p.packOrder w (q % w)) else p.padBit

/-- Byte `j` of the payload (R75). -/
def payloadByte (p : Params) (w : Nat) (d : List Word) (j : Nat) : Byte :=
  (List.range 8).foldl (fun r b => setBit r (byteBit p.packOrder b) (payloadBit p w d (8 * j + b))) 0

/-- `PACK(d, w)` (R75): the net effect of the bit writer, defined bit by bit. -/
def pack (p : Params) (w : Nat) (d : List Word) : List Byte :=
  (List.range (plen d.length w)).map (payloadByte p w d)

/-! ## Bit reader -/

/-- One round of the loop of `BITR.get`: `r[k] <- P[q div 8][q mod 8]` with `q = i*w + k` (R76). -/
def bitrBit (o : PackOrder) (bytes : List Byte) (w i : Nat) (r : Word) (k : Nat) : Run Word := do
  let b ← memRead bytes ((i * w + k) / 8)
  .ok (setBit r (valueBit o w k) (b.getLsbD (byteBit o (i * w + k))))

/-- `BITR.get(P, w, i)` (R76). -/
def bitrGet (o : PackOrder) (bytes : List Byte) (w i : Nat) : Run Word :=
  (List.range w).foldlM (bitrBit o bytes w i) 0

/-- The `N` values of a payload, in order (R100, R101). -/
def unpack (o : PackOrder) (n w : Nat) (bytes : List Byte) : Run (List Word) :=
  (List.range n).mapM (bitrGet o bytes w)

/-! ## Delta transform, maximum scan, running sum -/

/-- The larger of two unsigned values (R85). -/
def maxWord (a b : Word) : Word := if a < b then b else a

/-- The loop of `DELTA` from the running predecessor `pred` and maximum `maxv`: the deltas and the largest (R78). -/
def deltaLoop (pred maxv : Word) : List Word → Run (List Word × Word)
  | [] => .ok ([], maxv)
  | v :: vs =>
    if v < pred then .error (.raised .precedenceViolation)
    else do
      let (ds, m) ← deltaLoop v (maxWord maxv (v - pred)) vs
      .ok ((v - pred) :: ds, m)

/-- `DELTA(offset)` on the slots of the scratch block (R78). -/
def delta (offset : Word) (block : List Word) : Run (List Word × Word) := deltaLoop offset 0 block

/-- `MAXSCAN()` (R83). -/
def maxScan (values : List Word) : Word := values.foldl maxWord 0

/-- `ACCUM(acc, d)`: the exact sum, checked (R84). -/
def accum (acc d : Word) : Run Word :=
  if 2 ^ 32 ≤ acc.toNat + d.toNat then .error (.raised .accumulatorOverflow)
  else .ok (BitVec.ofNat 32 (acc.toNat + d.toNat))

/-- The running sums of the deltas from `acc`, in order (R100). -/
def runningSums (acc : Word) : List Word → Run (List Word)
  | [] => .ok []
  | d :: ds => do
    let v ← accum acc d
    let vs ← runningSums v ds
    .ok (v :: vs)

/-! ## Errors, and the end of a command -/

/-- `count` word slots whose contents draw number `draw` leaves unspecified (R121 (c)). -/
def freeWords (draw count : Nat) : List Word := (List.range count).map (Config.freeWord draw)

/-- `count` bytes whose contents draw number `draw` leaves unspecified (R121 (c)). -/
def freeBytes (draw count : Nat) : List Byte := (List.range count).map (Config.freeByte draw)

/-- Taking an error, the one exceptional event of the unit (R110, R121): the addressed part's length becomes 0 and
its buffers unspecified, the other part is untouched, nothing is saved, and the response is `ERR(e)`.  There is no
handler and no return from it: the unit is ready for the next command (R122). -/
def State.raise (s : State) (t : Target) (e : ErrorCode) : State :=
  match t with
  | .enc =>
    { s with
      enc := { block := freeWords s.draws s.params.n, out := freeBytes s.draws (outCap s.params.n), outLen := 0 },
      draws := s.draws + 1 }.respond (.err e)
  | .dec =>
    { s with
      dec := { val := freeWords s.draws s.params.decCap, vlen := 0 },
      draws := s.draws + 1 }.respond (.err e)

/-- How a command addressed to `t` ends: `return OK(n)` in the state its pseudocode reached, or the error it raised,
taken in the state it started from (R62, R121). -/
def finish (t : Target) (s : State) : Run (State × Nat) → Host.Outcome State Fault Refusal
  | .ok (s', n) => .next (s'.respond (.ok n))
  | .error (.raised e) => .next (s.raise t e)
  | .error (.broken f) => .fault f

end Sys2Proof.Machine
end

