-- ==== Sys2Proof/Machine/Decoder.lean ====
section
/-! DEFINITION. The decoder commands `USORT` and `UUNSORT` (spec/42_decoder_commands.md). -/

namespace Sys2Proof.Machine

/-- `HDR.get`, then the `N` fields of the payload it announces (the head of R100 and of R101). -/
def readBlock (s : State) : Run (Nat × List Word) := do
  let w ← hdrGet s.params.n (cin s)
  let d ← unpack s.params.packOrder s.params.n w (payload s.params.n w (cin s))
  .ok (w, d)

/-- Fill slots `0 .. N-1` of `DEC.val`, set `DEC.vlen`, and report the bytes consumed (the tail of R100 and R101). -/
def deliver (w : Nat) (values : List Word) (s : State) : Run (State × Nat) := do
  let val ← storeSlots s.dec.val values
  .ok (s.withValues val s.params.n, blen s.params.n w)

/-- The pseudocode of `USORT` (R100). -/
def usortBody (s : State) : Run (State × Nat) := do
  let (w, d) ← readBlock s
  let values ← runningSums (seed s) d
  deliver w values s

/-- `USORT` (R100). -/
def execUsort (s : State) : Host.Outcome State Fault Refusal := finish .dec s (usortBody s)

/-- The pseudocode of `UUNSORT` (R101). -/
def uunsortBody (s : State) : Run (State × Nat) := do
  let (w, d) ← readBlock s
  deliver w d s

/-- `UUNSORT` (R101). -/
def execUunsort (s : State) : Host.Outcome State Fault Refusal := finish .dec s (uunsortBody s)

end Sys2Proof.Machine
end

