-- ==== Sys2Proof/Machine/Encoder.lean ====
section
/-! DEFINITION. The encoder commands `CSORT` and `CUNSORT` (spec/41_encoder_commands.md). -/

namespace Sys2Proof.Machine

/-- Write the values `d` at width `w` into `ENC.out` and set `ENC.out_len` (the tail of R79 and of R91). -/
def compressAt (w : Nat) (d : List Word) (s : State) : Run (State × Nat) := do
  let (out, bytes) ← emitBlock s.params w d s.enc.out
  .ok (s.withBlockOut out (1 + bytes), 1 + bytes)

/-- `DCOMP(offset)`: delta transform of `ENC.block` in place, then compress (R79). -/
def dcomp (offset : Word) (s : State) : Run (State × Nat) := do
  let (d, maxv) ← delta offset (s.enc.block.take s.params.n)
  let block ← storeSlots s.enc.block d
  compressAt (bitWidth (maxv.zeroExtend 64)) d (s.withBlock block)

/-- The pseudocode of `CSORT` (R90). -/
def csortBody (s : State) : Run (State × Nat) :=
  if len s ≠ s.params.n then .error (.raised .lengthMismatch)
  else do
    let block ← storeSlots s.enc.block (vin s)
    dcomp (seed s) (s.withBlock block)

/-- `CSORT` (R90). -/
def execCsort (s : State) : Host.Outcome State Fault Refusal := finish .enc s (csortBody s)

/-- The pseudocode of `CUNSORT` (R91). -/
def cunsortBody (s : State) : Run (State × Nat) :=
  if len s = 0 then .error (.raised .emptyInput)
  else if len s ≠ s.params.n then .error (.raised .lengthMismatch)
  else compressAt (bitWidth ((maxScan (vin s)).zeroExtend 64)) (vin s) s

/-- `CUNSORT` (R91). -/
def execCunsort (s : State) : Host.Outcome State Fault Refusal := finish .enc s (cunsortBody s)

end Sys2Proof.Machine
end

