-- ==== Sys2Proof/Machine/Dispatch.lean ====
section
/-! DEFINITION. From a command to its meaning, one arm per constructor. -/

namespace Sys2Proof.Machine

def exec (i : Instr) (s : State) : Host.Outcome State Fault Refusal :=
  match i with
  | .csort => Sys2Proof.Machine.execCsort s
  | .cunsort => Sys2Proof.Machine.execCunsort s
  | .usort => Sys2Proof.Machine.execUsort s
  | .uunsort => Sys2Proof.Machine.execUunsort s

end Sys2Proof.Machine
end

