-- ==== Sys2Proof/Machine/Port.lean ====
section
/-! DEFINITION. The host's side of the ports: taking the next entry of the host's list, the reset between commands,
what the host may read, and the two host idioms (spec/30_encoding.md R61 to R67, spec/70_reset_and_hazards.md). -/

namespace Sys2Proof.Machine

/-- What the next entry of the host's list makes of the machine. -/
inductive Fetched where
  /-- A command is on the port and its word decodes: run it. -/
  | run (i : Instr) (s : State)
  /-- Nothing remains to run: this is the next state. -/
  | settled (s : State)
  /-- The entry has no meaning. -/
  | refuse (r : Refusal)
deriving DecidableEq, Repr

/-- The command is on the port, its operands held until the response (R40), and the list moves on. -/
def State.present (s : State) (c : Command) (rest : List HostEvent) : State := { s with port := c, pending := rest }

/-- A reset between commands (R141): the unit returns to its state after reset; the host's side stays. -/
def State.resetUnit (s : State) : State := { s with enc := Enc.reset s.params, dec := Dec.reset s.params }

/-- A presented command: a reserved word is answered `ERR(IllegalCommand)` before any operand is looked at, with no
other effect (R63, R118, R120); a command whose operand does not fit its length port is refused (U10, log entry 4). -/
def fetchCommand (s : State) (c : Command) (rest : List HostEvent) : Fetched :=
  match decodeOp c.op with
  | .ok i => if c.wf s.params i then .run i (s.present c rest) else .refuse .operandTooLong
  | .error _ => .settled ((s.present c rest).respond (.err .illegalCommand))

/-- Take the next entry of the host's list (R152).  With none the unit is idle and holds its state (R132). -/
def fetch (s : State) : Fetched :=
  match s.pending with
  | [] => .settled s
  | .present c :: rest => fetchCommand s c rest
  | .reset :: rest => .settled { s with pending := rest }.resetUnit
  | .breach b :: _ => .refuse (.hostBreach b)

/-- The operands the host would present next, or an undriven port where it would present none that fits. -/
def nextOperands (s : State) : Command :=
  match s.pending with
  | .present c :: _ => if c.wf s.params .csort && c.wf s.params .usort then c else undrivenPort
  | _ => undrivenPort

/-- The host's list with a command of word `w` as its next entry, keeping the operands presented there. -/
def placeWord (s : State) (nbits w : Nat) : State :=
  { s with
    pending := .present { nextOperands s with op := BitVec.ofNat 8 (tableWord nbits w) } :: s.pending.drop 1 }

/-- A host read of byte `j` of the view; nothing at or beyond `ENC.out_len` can be read (R14, R36). -/
def State.readView (s : State) (j : Nat) : Option Byte := s.view[j]?

/-- A host read of value `i` of the accessor; nothing at or beyond `DEC.vlen` can be read (R17, R36). -/
def State.readValue (s : State) (i : Nat) : Option Word := s.accessor[i]?

/-- The host idiom `buf <- buf ++ ENC.out[0 .. n)` (R67). -/
def appendView (buf : List Byte) (s : State) : List Byte := buf ++ s.view

/-- The host idiom `rest <- rest[n ..)` after a decode: the remaining bytes after `OK(n)`, and no move of the host's
cursor after an error (R32, R67, R149). -/
def takeTail (bytes : List Byte) (r : Response) : List Byte := bytes.drop (rspN r)

end Sys2Proof.Machine
end

