-- ==== Sys2Proof/Machine/Step.lean ====
section
/-! DEFINITION. One step: the next entry of the host's list, run to its end as one atomic command (R40). -/

namespace Sys2Proof.Machine

/-- One step of the machine (R40, R43, R152). -/
def step (s : State) : Host.Outcome State Fault Refusal :=
  match fetch s with
  | .run i s' => exec i s'
  | .settled s' => .next s'
  | .refuse r => .refused r

/-- The state in which the very next step presents the command word `w` (R60; log entry 2). -/
def State.withFetchWord (s : State) (nbits w : Nat) : State := placeWord s nbits w

end Sys2Proof.Machine
end

