-- ==== Sys2Proof/Safety.lean ====
section
/-! DEFINITION. What counts as a safe state and a safe run, and the words in which statements speak of blocks, deltas
and running sums: the spec's closed forms, written apart from the loops of Machine/Ops.lean. -/

namespace Sys2Proof.Machine

/-! ## Safe states -/

/-- The encoder view is empty, or exactly one compressed block: its first byte is a legal width `w` and its length
is `BLEN(w)` (R13, R22, R50). -/
def Enc.legalView (n : Nat) (e : Enc) : Bool :=
  e.outLen == 0 ||
    match e.out with
    | [] => false
    | b :: _ => decide (b.toNat ≤ wMax) && e.outLen == blen n b.toNat

/-- The encoder's form: `N` slots, `4N + 1` bytes, a legal length (R11, R12, R13, R22). -/
def Enc.wf (p : Params) (e : Enc) : Bool :=
  e.block.length == p.n && Memory.wf (outCap p.n) e.out && e.legalView p.n

/-- The decoder's form: `DECCAP` slots, and `DEC.vlen` is 0 or `N` (R15, R16, R22). -/
def Dec.wf (p : Params) (d : Dec) : Bool :=
  d.val.length == p.decCap && (d.vlen == 0 || d.vlen == p.n)

/-- The form every state keeps: a legal build, both parts well formed, and one response for every step of the host's
index (R20). -/
def State.wf (s : State) : Bool :=
  s.params.wf && s.enc.wf s.params && s.dec.wf s.params && s.cpc == s.rsps.length

/-- "No `ERR` response occurred" (R133): the premise of a claim about commands that are meant to succeed. -/
def State.noError (s : State) : Bool :=
  s.rsps.all fun r => match r with
    | .ok _ => true
    | .err _ => false

/-- A run of `k` steps that meets neither a fault nor a refusal. -/
def safeFor (k : Nat) (s : State) : Bool :=
  match Host.Core.run Sys2Proof.core k s with
  | .next _ => true
  | .fault _ => false
  | .refused _ => false

/-! ## The words of the statements -/

/-- An outcome with its next state changed. -/
def onNext (f : State → State) : Host.Outcome State Fault Refusal → Host.Outcome State Fault Refusal
  | .next s => .next (f s)
  | .fault r => .fault r
  | .refused r => .refused r

/-- `predecessor[i]` (R78): the seed for the first value, else the value before. -/
def predecessor (offset : Word) (values : List Word) (i : Nat) : Word := (offset :: values).getD i 0

/-- The precondition of the sorted path (R78, R90): no value is below its predecessor. -/
abbrev SortedFrom (offset : Word) (values : List Word) : Prop :=
  ∀ i, i < values.length → (predecessor offset values i).toNat ≤ (values.getD i 0).toNat

/-- The deltas `value[i] - predecessor[i]` (R78). -/
def deltasOf (offset : Word) (values : List Word) : List Word :=
  (List.range values.length).map fun i =>
    BitVec.ofNat 32 ((values.getD i 0).toNat - (predecessor offset values i).toNat)

/-- The largest of some values, 0 where there is none (R80). -/
def maxOf (values : List Word) : Nat := (values.map BitVec.toNat).foldr max 0

/-- The width the encoder writes for these encoded values (R80). -/
def widthOf (d : List Word) : Nat := bitWidth (BitVec.ofNat 64 (maxOf d))

/-- The compressed block of these encoded values (R50): the width byte, then the payload. -/
def blockOf (p : Params) (d : List Word) : List Byte := BitVec.ofNat 8 (widthOf d) :: pack p (widthOf d) d

/-- `offset + d[0] + ... + d[i]`, exactly (R82, R100). -/
def sumUpTo (offset : Word) (d : List Word) (i : Nat) : Nat :=
  offset.toNat + ((d.take (i + 1)).map BitVec.toNat).sum

/-- Every running sum fits 32 bits (R100, R117). -/
abbrev SumsFit (offset : Word) (d : List Word) : Prop := ∀ i, i < d.length → sumUpTo offset d i < 2 ^ 32

/-- The values a sorted decode delivers (R100). -/
def sumsOf (offset : Word) (d : List Word) : List Word :=
  (List.range d.length).map fun i => BitVec.ofNat 32 (sumUpTo offset d i)

/-- Bit number `q` of a payload in the build's bit order (R53). -/
def streamBit (o : PackOrder) (bytes : List Byte) (q : Nat) : Bool := (bytes.getD (q / 8) 0).getLsbD (byteBit o q)

/-- Bit `b` of field `i` of a payload at width `w`; bits `w` and above are 0 (R53, R76). -/
def fieldBit (o : PackOrder) (w : Nat) (bytes : List Byte) (i b : Nat) : Bool :=
  decide (b < w) && streamBit o bytes (i * w + valueBit o w b)

/-- The word whose bits are given. -/
def wordOfBits (f : Nat → Bool) : Word := (List.range 32).foldl (fun r b => setBit r b (f b)) 0

/-- The `n` fields of a payload at width `w` (R53, R76). -/
def fieldsOf (o : PackOrder) (n w : Nat) (bytes : List Byte) : List Word :=
  (List.range n).map fun i => wordOfBits (fieldBit o w bytes i)

/-- The fields a decode command reads from its byte operand, once its width byte is `w` (R100, R101). -/
def decodedFields (s : State) (w : Nat) : List Word :=
  fieldsOf s.params.packOrder s.params.n w (payload s.params.n w (cin s))

/-- A byte sequence as one little-endian number (R53). -/
def numberOfBytes : List Byte → Nat
  | [] => 0
  | b :: bs => b.toNat + 2 ^ 8 * numberOfBytes bs

/-- Values laid one after another, `w` bits each, as one number (R53, R75). -/
def numberOfValues (w : Nat) : List Word → Nat
  | [] => 0
  | v :: vs => v.toNat + 2 ^ w * numberOfValues w vs

/-- The values an encoder command packs: deltas on the sorted path, raw values on the unsorted path (R80, R92). -/
def encodedValues (i : Instr) (s : State) : List Word :=
  match i with
  | .csort => deltasOf (seed s) (vin s)
  | .cunsort => vin s
  | .usort => []
  | .uunsort => []

/-- The decode command of the path of an encode command (R59, R102); a decode command is its own. -/
def decoderFor : Instr → Instr
  | .csort => .usort
  | .cunsort => .uunsort
  | .usort => .usort
  | .uunsort => .uunsort

end Sys2Proof.Machine
end

