-- ==== Sys2Proof/Certificates/Slice0/Obligations.lean ====
section
/-! DEFINITION. The statements for the provers, from the numbered rules of spec/.  Each holds for every build: every
`N`, both payload bit orders, both pad bits (those beside the spec's defaults are the model's own, log entry 3, so
that nothing rests on which is chosen unless a hypothesis names it). -/

open Sys2Proof Sys2Proof.Machine

/-! ## The command port -/

/-- R60 (the spec's decision D6): a command word with reserved bits `000000` selects its command by `DIR` (which part) and `MODE` (which path). -/
def Obligations.CommandWordSelectsByDirAndMode : Prop :=
  ∀ op : Byte, op.extractLsb' 2 6 = 0 →
    ∃ i, decodeOp op = .ok i ∧ encode i = op ∧
      i.target = (if op.getLsbD 1 then .dec else .enc) ∧
      (op.getLsbD 0 = false ↔ i = .csort ∨ i = .usort)

/-- The words of spec/opcode_table.json, and three reserved words of vectors E23 and E24. -/
def Obligations.TableWordsDecodeToTheirCommands : Prop :=
  decodeOp 0b00000000 = .ok .csort ∧ decodeOp 0b00000001 = .ok .cunsort ∧
  decodeOp 0b00000010 = .ok .usort ∧ decodeOp 0b00000011 = .ok .uunsort ∧
  decodeOp 0x04 = .error (.reservedWord 0x04) ∧ decodeOp 0x80 = .error (.reservedWord 0x80) ∧
  decodeOp 0xFF = .error (.reservedWord 0xFF)

/-- Decoding and encoding a command word agree, both ways. -/
def Obligations.DecodeAndEncodeAgree : Prop :=
  (∀ i, decodeOp (encode i) = .ok i) ∧ ∀ op i, decodeOp op = .ok i → op = encode i

/-- A step runs the decoded command: with the command on the port and the host's list moved on, it is `exec`.  That
the list stands in the state is the model's choice (log entry 2). -/
def Obligations.StepRunsTheDecodedCommand : Prop :=
  ∀ (s : State) (c : Command) (rest : List HostEvent) (i : Instr),
    s.pending = .present c :: rest → decodeOp c.op = .ok i → c.wf s.params i = true →
    step s = exec i { s with port := c, pending := rest }

/-- R63, R118 (the spec's decision D24): a reserved word answers `ERR(IllegalCommand)` and changes nothing of the unit. -/
def Obligations.ReservedWordAnswersIllegalCommand : Prop :=
  ∀ (s : State) (c : Command) (rest : List HostEvent),
    s.pending = .present c :: rest → 4 ≤ c.op.toNat →
    step s = .next { s with
      port := c, pending := rest, rsps := s.rsps ++ [.err .illegalCommand], cpc := s.cpc + 1 }

/-- R132 (the spec's decision D16): between commands the unit is idle and holds its state.  That a step
with an empty host list is such a moment is the model's choice (log entry 2). -/
def Obligations.IdleUnitHoldsItsState : Prop :=
  ∀ s : State, s.pending = [] → step s = .next s

/-- R141 (the spec's decision D20): a reset between commands empties the view and the accessor.  That the
host's side stays is the model's choice (log entry 11). -/
def Obligations.ResetBetweenCommandsEmptiesBothParts : Prop :=
  ∀ (s : State) (rest : List HostEvent), s.pending = .reset :: rest →
    ∃ t, step s = .next t ∧ t.enc.outLen = 0 ∧ t.dec.vlen = 0 ∧ t.view = [] ∧ t.accessor = [] ∧
      t.params = s.params ∧ t.port = s.port ∧ t.pending = rest ∧ t.rsps = s.rsps ∧ t.cpc = s.cpc

/-- R23, R140 (the spec's decision D10): reset leaves both lengths 0, so there is no view and no accessor. -/
def Obligations.ResetLeavesBothLengthsZero : Prop :=
  State.reset.enc.outLen = 0 ∧ State.reset.dec.vlen = 0 ∧ State.reset.view = [] ∧ State.reset.accessor = [] ∧
    State.reset.params.n = 128

/-- R142, R146, R147 and U10: a host that breaks its rules, or presents a command whose operand
its port cannot hold, is refused (log entries 4 and 10). -/
def Obligations.HostBreachesAreRefused : Prop :=
  (∀ (s : State) (b : HostBreach) (rest : List HostEvent), s.pending = .breach b :: rest →
    step s = .refused (.hostBreach b)) ∧
  (∀ (s : State) (c : Command) (rest : List HostEvent) (i : Instr), s.pending = .present c :: rest →
    decodeOp c.op = .ok i →
    (i.target = .enc ∧ 2 ^ s.params.lw ≤ c.vals.length ∨ i.target = .dec ∧ 2 ^ s.params.lw ≤ c.cbytes.length) →
    step s = .refused .operandTooLong)

/-- R14, R17: in a well-formed state the host reads exactly the bytes below `ENC.out_len` and the slots below `DEC.vlen`. -/
def Obligations.HostReadsOnlyTheViewAndTheAccessor : Prop :=
  ∀ s : State, s.wf = true →
    (∀ j, s.readView j = if j < s.enc.outLen then s.enc.out[j]? else none) ∧ s.view.length = s.enc.outLen ∧
    (∀ i, s.readValue i = if i < s.dec.vlen then s.dec.val[i]? else none) ∧ s.accessor.length = s.dec.vlen

/-- R62, R111 (the spec's decision D7): the numbers of the response codes, and `RSP.n`. -/
def Obligations.ResponseCodesAreTheTable : Prop :=
  (∀ n, rspCode (.ok n) = 0x00 ∧ rspN (.ok n) = n) ∧ (∀ e, rspN (.err e) = 0) ∧
  rspCode (.err .lengthMismatch) = 0x01 ∧ rspCode (.err .emptyInput) = 0x02 ∧
  rspCode (.err .precedenceViolation) = 0x03 ∧ rspCode (.err .truncatedInput) = 0x04 ∧
  rspCode (.err .invalidBitWidth) = 0x05 ∧ rspCode (.err .accumulatorOverflow) = 0x06 ∧
  rspCode (.err .illegalCommand) = 0x07

/-! ## The internal primitives -/

/-- R70: `BITWIDTH(m)` is the least `b` with `m < 2^b`; it is 0 exactly for 0, and at most 32 for a 32-bit operand. -/
def Obligations.BitWidthIsTheLeastSufficientWidth : Prop :=
  ∀ m : BitVec 64,
    m.toNat < 2 ^ bitWidth m ∧ (∀ b, m.toNat < 2 ^ b → bitWidth m ≤ b) ∧ (bitWidth m = 0 ↔ m = 0) ∧
    (m.toNat < 2 ^ 32 → bitWidth m ≤ 32)

/-- R80 (derived by the spec from R70): the written width holds every encoded value, no smaller one does, and it is
at most 32. -/
def Obligations.WrittenWidthIsMinimal : Prop :=
  ∀ d : List Word,
    widthOf d ≤ 32 ∧ (∀ v ∈ d, v.toNat < 2 ^ widthOf d) ∧ ∀ w, (∀ v ∈ d, v.toNat < 2 ^ w) → widthOf d ≤ w

/-- R81 (derived by the spec): every legal block fits the output buffer, which the widest fills. -/
def Obligations.EveryBlockFitsTheOutputBuffer : Prop :=
  ∀ n w : Nat, w ≤ 32 →
    blen n w ≤ outCap n ∧ (blen n w = outCap n ↔ plen n w = 4 * n) ∧ blen n 32 = outCap n

/-- R75 (derived by the spec from R73, R74): the bit-serial writer, opened, fed and closed, leaves the width byte and
`PACK(d, w)` in the buffer, nothing else changed, and reports `PLEN(w)`. -/
def Obligations.BitSerialWriterEqualsPack : Prop :=
  ∀ (p : Params) (w : Nat) (d : List Word) (out : Memory), blen d.length w ≤ out.length →
    emitBlock p w d out =
      .ok (BitVec.ofNat 8 w :: (pack p w d ++ out.drop (blen d.length w)), plen d.length w)

/-- R53, R75: in the spec's bit order (its decision D1) and with pad bits 0 (D3), the payload read as one
little-endian number is the sum of the values, each at its `w`-bit place. -/
def Obligations.PayloadIsOneLittleEndianNumber : Prop :=
  ∀ (p : Params) (w : Nat) (d : List Word), p.packOrder = .lsbFirstLE → p.padBit = false → w ≤ 32 →
    (∀ v ∈ d, v.toNat < 2 ^ w) → numberOfBytes (pack p w d) = numberOfValues w d

/-- R77 (derived by the spec from R75, R76): reading inverts packing, and packing what was read gives back the payload
with its pad bits made the build's. -/
def Obligations.WriterAndReaderAreInverse : Prop :=
  (∀ (p : Params) (w : Nat) (d : List Word), w ≤ 32 → (∀ v ∈ d, v.toNat < 2 ^ w) →
    unpack p.packOrder d.length w (pack p w d) = .ok d) ∧
  (∀ (p : Params) (w n : Nat) (bytes : List Byte), w ≤ 32 → bytes.length = plen n w →
    ∃ d, unpack p.packOrder n w bytes = .ok d ∧ (pack p w d).length = bytes.length ∧
      ∀ q, q < 8 * plen n w →
        streamBit p.packOrder (pack p w d) q = if q < n * w then streamBit p.packOrder bytes q else p.padBit)

/-- R76: `BITR.get` on a payload that is wholly there answers the `w`-bit field, extended with zeros to 32 bits. -/
def Obligations.BitReaderAnswersTheField : Prop :=
  ∀ (o : PackOrder) (n w i : Nat) (bytes : List Byte), w ≤ 32 → plen n w ≤ bytes.length → i < n →
    ∃ v, bitrGet o bytes w i = .ok v ∧ v.toNat < 2 ^ w ∧
      ∀ k, k < w → v.getLsbD (valueBit o w k) = streamBit o bytes (i * w + k)

/-- R78: `DELTA` answers the deltas and the largest of them, or raises `PrecedenceViolation`. -/
def Obligations.DeltaTransformIsChecked : Prop :=
  ∀ (offset : Word) (values : List Word),
    (SortedFrom offset values →
      delta offset values = .ok (deltasOf offset values, BitVec.ofNat 32 (maxOf (deltasOf offset values)))) ∧
    (¬ SortedFrom offset values → delta offset values = .error (.raised .precedenceViolation))

/-- R79: `DCOMP` overwrites `ENC.block` with the deltas, writes the block into `ENC.out` from index 0, sets
`ENC.out_len`, and changes nothing else; its only error is `PrecedenceViolation`. -/
def Obligations.DeltaCompressWritesTheBlock : Prop :=
  ∀ (s : State) (offset : Word), s.wf = true →
    (SortedFrom offset s.enc.block →
      dcomp offset s =
        .ok ({ s with
          enc := {
            block := deltasOf offset s.enc.block,
            out := blockOf s.params (deltasOf offset s.enc.block) ++
              s.enc.out.drop (blockOf s.params (deltasOf offset s.enc.block)).length,
            outLen := (blockOf s.params (deltasOf offset s.enc.block)).length } },
          1 + plen s.params.n (widthOf (deltasOf offset s.enc.block)))) ∧
    (¬ SortedFrom offset s.enc.block → dcomp offset s = .error (.raised .precedenceViolation))

/-- R82 (derived by the spec from R78): the deltas of a sorted block sum back to its values, exactly. -/
def Obligations.DeltasSumBack : Prop :=
  ∀ (offset : Word) (values : List Word), SortedFrom offset values →
    (∀ i, i < values.length → sumUpTo offset (deltasOf offset values) i = (values.getD i 0).toNat) ∧
    runningSums offset (deltasOf offset values) = .ok values

/-- R84 (the spec's decision D8): the running sum is exact where it fits 32 bits, and an error where it does not. -/
def Obligations.RunningSumsAreExactOrRaise : Prop :=
  ∀ (offset : Word) (d : List Word),
    (SumsFit offset d → runningSums offset d = .ok (sumsOf offset d)) ∧
    (¬ SumsFit offset d → runningSums offset d = .error (.raised .accumulatorOverflow))

/-- R83: `MAXSCAN` answers the maximum of the values, and 0 for all zeros. -/
def Obligations.MaxScanIsTheMaximum : Prop :=
  ∀ values : List Word,
    (∀ v ∈ values, v.toNat ≤ (maxScan values).toNat) ∧ (values ≠ [] → maxScan values ∈ values) ∧
    (maxScan values).toNat = maxOf values

/-! ## The four commands -/

/-- R90: what `CSORT` does, in every case: the new state whole where its preconditions hold (the bytes of `ENC.out`
from `n` on are kept: R36, R38), and which error it raises where they do not. -/
def Obligations.CsortCompressesSortedBlocks : Prop :=
  ∀ s : State, s.wf = true →
    (len s = s.params.n → SortedFrom (seed s) (vin s) →
      exec .csort s =
        .next { s with
          enc := {
            block := deltasOf (seed s) (vin s),
            out := blockOf s.params (deltasOf (seed s) (vin s)) ++
              s.enc.out.drop (blockOf s.params (deltasOf (seed s) (vin s))).length,
            outLen := blen s.params.n (widthOf (deltasOf (seed s) (vin s))) },
          rsps := s.rsps ++ [.ok (blen s.params.n (widthOf (deltasOf (seed s) (vin s))))],
          cpc := s.cpc + 1 }) ∧
    (len s ≠ s.params.n → exec .csort s = .next (s.raise .enc .lengthMismatch)) ∧
    (len s = s.params.n → ¬ SortedFrom (seed s) (vin s) →
      exec .csort s = .next (s.raise .enc .precedenceViolation))

/-- R91 (which error an empty operand reports is the spec's decision D19): what `CUNSORT` does, in every case. -/
def Obligations.CunsortCompressesRawBlocks : Prop :=
  ∀ s : State, s.wf = true →
    (len s = s.params.n →
      exec .cunsort s =
        .next { s with
          enc := {
            block := s.enc.block,
            out := blockOf s.params (vin s) ++ s.enc.out.drop (blockOf s.params (vin s)).length,
            outLen := blen s.params.n (widthOf (vin s)) },
          rsps := s.rsps ++ [.ok (blen s.params.n (widthOf (vin s)))],
          cpc := s.cpc + 1 }) ∧
    (len s = 0 → exec .cunsort s = .next (s.raise .enc .emptyInput)) ∧
    (len s ≠ 0 → len s ≠ s.params.n → exec .cunsort s = .next (s.raise .enc .lengthMismatch))

/-- R100: what `USORT` does, in every case. -/
def Obligations.UsortDeliversRunningSums : Prop :=
  ∀ s : State, s.wf = true →
    (cin s = [] → exec .usort s = .next (s.raise .dec .truncatedInput)) ∧
    ∀ (b : Byte) (rest : List Byte), cin s = b :: rest →
      (32 < b.toNat → exec .usort s = .next (s.raise .dec .invalidBitWidth)) ∧
      (b.toNat ≤ 32 → clen s < blen s.params.n b.toNat →
        exec .usort s = .next (s.raise .dec .truncatedInput)) ∧
      (b.toNat ≤ 32 → blen s.params.n b.toNat ≤ clen s → ¬ SumsFit (seed s) (decodedFields s b.toNat) →
        exec .usort s = .next (s.raise .dec .accumulatorOverflow)) ∧
      (b.toNat ≤ 32 → blen s.params.n b.toNat ≤ clen s → SumsFit (seed s) (decodedFields s b.toNat) →
        exec .usort s =
          .next { s with
            dec := {
              val := sumsOf (seed s) (decodedFields s b.toNat) ++ s.dec.val.drop s.params.n,
              vlen := s.params.n },
            rsps := s.rsps ++ [.ok (blen s.params.n b.toNat)],
            cpc := s.cpc + 1 })

/-- R101: what `UUNSORT` does, in every case. -/
def Obligations.UunsortDeliversRawFields : Prop :=
  ∀ s : State, s.wf = true →
    (cin s = [] → exec .uunsort s = .next (s.raise .dec .truncatedInput)) ∧
    ∀ (b : Byte) (rest : List Byte), cin s = b :: rest →
      (32 < b.toNat → exec .uunsort s = .next (s.raise .dec .invalidBitWidth)) ∧
      (b.toNat ≤ 32 → clen s < blen s.params.n b.toNat →
        exec .uunsort s = .next (s.raise .dec .truncatedInput)) ∧
      (b.toNat ≤ 32 → blen s.params.n b.toNat ≤ clen s →
        exec .uunsort s =
          .next { s with
            dec := { val := decodedFields s b.toNat ++ s.dec.val.drop s.params.n, vlen := s.params.n },
            rsps := s.rsps ++ [.ok (blen s.params.n b.toNat)],
            cpc := s.cpc + 1 })

/-- R92: the response and `ENC.out_len` of a successful compress are `1 + ceil(N * BITWIDTH(max) / 8)`. -/
def Obligations.CompressedLengthDependsOnlyOnTheMaximum : Prop :=
  ∀ (i : Instr) (s t : State) (n : Nat), s.wf = true → i.target = .enc → exec i s = .next t →
    t.response = some (.ok n) →
    n = t.enc.outLen ∧ n = 1 + (s.params.n * bitWidth (BitVec.ofNat 64 (maxOf (encodedValues i s))) + 7) / 8 ∧
    1 ≤ n ∧ n ≤ 4 * s.params.n + 1

/-- R55: a block of width 0 is the single byte `00`, and stands for `N` encoded values equal to 0. -/
def Obligations.ZeroBlockIsOneByte : Prop :=
  (∀ s : State, s.wf = true → vin s = List.replicate s.params.n 0 → seed s = 0 →
    ∃ t, exec .csort s = .next t ∧ t.response = some (.ok 1) ∧ t.view = [0]) ∧
  (∀ s : State, s.wf = true → vin s = List.replicate s.params.n 0 →
    ∃ t, exec .cunsort s = .next t ∧ t.response = some (.ok 1) ∧ t.view = [0]) ∧
  (∀ (u : State) (rest : List Byte), u.wf = true → cin u = 0 :: rest →
    (∃ v, exec .usort u = .next v ∧ v.response = some (.ok 1) ∧ v.accessor = List.replicate u.params.n (seed u)) ∧
    (∃ v, exec .uunsort u = .next v ∧ v.response = some (.ok 1) ∧ v.accessor = List.replicate u.params.n 0))

/-- R56: a block whose encoded values need 32 bits fills the output buffer, and in the spec's bit order (decision D1)
holds each value as four bytes, least significant first. -/
def Obligations.FullWidthBlockFillsTheBuffer : Prop :=
  ∀ (i : Instr) (s t : State) (n : Nat), s.wf = true → i.target = .enc → exec i s = .next t →
    t.response = some (.ok n) → 2 ^ 31 ≤ maxOf (encodedValues i s) →
    n = 1 + 4 * s.params.n ∧ t.view = t.enc.out ∧ t.view[0]? = some 0x20 ∧
    (s.params.packOrder = .lsbFirstLE → ∀ k j, k < s.params.n → j < 4 →
      t.view[1 + 4 * k + j]? = some (((encodedValues i s).getD k 0).extractLsb' (8 * j) 8))

/-- R100: the output of a sorted decode never decreases, and its first value is not below the seed. -/
def Obligations.SortedDecodeNeverDecreases : Prop :=
  ∀ (s t : State) (n : Nat), s.wf = true → exec .usort s = .next t → t.response = some (.ok n) →
    t.accessor.length = s.params.n ∧ SortedFrom (seed s) t.accessor

/-! ## Compress and uncompress together -/

/-- R102: the round trip, on both paths, for every `N`, with any bytes after the block. -/
def Obligations.UncompressInvertsCompress : Prop :=
  ∀ (i : Instr) (s t u : State) (n : Nat) (tail : List Byte),
    s.wf = true → u.wf = true → u.params = s.params → i.target = .enc →
    exec i s = .next t → t.response = some (.ok n) →
    cin u = t.view ++ tail → (i = .csort → seed u = seed s) →
    ∃ v, exec (decoderFor i) u = .next v ∧ v.response = some (.ok n) ∧ v.accessor = vin s

/-- R103: two blocks one after the other decode in order, each consuming its own bytes, and nothing remains. -/
def Obligations.ConcatenatedBlocksDecodeInOrder : Prop :=
  ∀ (i₁ i₂ : Instr) (s₁ s₂ t₁ t₂ u₁ u₂ : State) (n₁ n₂ : Nat),
    s₁.wf = true → s₂.wf = true → u₁.wf = true → u₂.wf = true →
    s₂.params = s₁.params → u₁.params = s₁.params → u₂.params = s₁.params →
    i₁.target = .enc → i₂.target = .enc →
    exec i₁ s₁ = .next t₁ → t₁.response = some (.ok n₁) → exec i₂ s₂ = .next t₂ → t₂.response = some (.ok n₂) →
    cin u₁ = t₁.view ++ t₂.view → cin u₂ = takeTail (cin u₁) (.ok n₁) →
    (i₁ = .csort → seed u₁ = seed s₁) → (i₂ = .csort → seed u₂ = seed s₂) →
    ∃ v₁ v₂,
      exec (decoderFor i₁) u₁ = .next v₁ ∧ v₁.response = some (.ok t₁.view.length) ∧ v₁.accessor = vin s₁ ∧
      exec (decoderFor i₂) u₂ = .next v₂ ∧ v₂.response = some (.ok t₂.view.length) ∧ v₂.accessor = vin s₂ ∧
      takeTail (cin u₂) (.ok t₂.view.length) = []

/-- R106 (derived by the spec): the wire format does not record the path, so the other decode command answers the
deltas, or the running sums of the raw values, or values shifted by the difference of the offsets. -/
def Obligations.CrossedPathsDecodeWithoutDetection : Prop :=
  ∀ (i : Instr) (s t u : State) (n : Nat),
    s.wf = true → u.wf = true → u.params = s.params → exec i s = .next t → t.response = some (.ok n) →
    cin u = t.view →
    (i = .csort →
      ∃ v, exec .uunsort u = .next v ∧ v.response = some (.ok n) ∧ v.accessor = deltasOf (seed s) (vin s)) ∧
    (i = .cunsort → (seed u).toNat + ((vin s).map BitVec.toNat).sum < 2 ^ 32 →
      ∃ v, exec .usort u = .next v ∧ v.response = some (.ok n) ∧ v.accessor = sumsOf (seed u) (vin s)) ∧
    (i = .cunsort → 2 ^ 32 ≤ (seed u).toNat + ((vin s).map BitVec.toNat).sum →
      exec .usort u = .next (u.raise .dec .accumulatorOverflow)) ∧
    (i = .csort → (∀ x ∈ vin s, x.toNat - (seed s).toNat + (seed u).toNat < 2 ^ 32) →
      ∃ v, exec .usort u = .next v ∧ v.response = some (.ok n) ∧
        v.accessor.map BitVec.toNat = (vin s).map fun x => x.toNat - (seed s).toNat + (seed u).toNat)

/-! ## Errors -/

/-- R112: `LengthMismatch` is reported exactly for `CSORT` with `len` not `N`, and `CUNSORT` with `len` neither 0 nor
`N`; its code is `0x01`. -/
def Obligations.LengthMismatchExactlyOnWrongLength : Prop :=
  (∀ (i : Instr) (s t : State), s.wf = true → exec i s = .next t →
    (t.response = some (.err .lengthMismatch) ↔
      (i = .csort ∧ len s ≠ s.params.n) ∨ (i = .cunsort ∧ len s ≠ s.params.n ∧ len s ≠ 0))) ∧
  errorNumber .lengthMismatch = 0x01

/-- R111: each error comes only from the commands its row names, and none from `IllegalCommand`'s. -/
def Obligations.EachErrorComesOnlyFromItsCommands : Prop :=
  ∀ (i : Instr) (s t : State) (e : ErrorCode), exec i s = .next t → t.response = some (.err e) →
    match e with
    | .lengthMismatch => i = .csort ∨ i = .cunsort
    | .emptyInput => i = .cunsort
    | .precedenceViolation => i = .csort
    | .truncatedInput => i = .usort ∨ i = .uunsort
    | .invalidBitWidth => i = .usort ∨ i = .uunsort
    | .accumulatorOverflow => i = .usort
    | .illegalCommand => False

/-- R121 (the spec's decision D9): an error empties the part it is addressed to, leaves the other part and all else
as it was, and reports `RSP.n = 0`.  Nothing is said of the buffers' contents. -/
def Obligations.AnErrorEmptiesOnlyItsPart : Prop :=
  ∀ (i : Instr) (s t : State) (e : ErrorCode), exec i s = .next t → t.response = some (.err e) →
    (i.target = .enc → t.enc.outLen = 0 ∧ t.view = [] ∧ t.dec = s.dec) ∧
    (i.target = .dec → t.dec.vlen = 0 ∧ t.accessor = [] ∧ t.enc = s.enc) ∧
    t.rsps = s.rsps ++ [.err e] ∧ rspN (.err e) = 0 ∧ t.params = s.params ∧ t.port = s.port ∧ t.pending = s.pending

/-- R122: a failure on the first attempt fails identically on retry. -/
def Obligations.ARetryFailsIdentically : Prop :=
  ∀ (i : Instr) (s t : State) (e : ErrorCode), s.wf = true → exec i s = .next t → t.response = some (.err e) →
    ∃ u, exec i t = .next u ∧ u.response = some (.err e)

/-! ## Frames and independence -/

/-- R62, R48, R20: a command gives exactly one response, moves the host's index by one, and writes neither its operands
nor the build nor the host's list. -/
def Obligations.EveryCommandGivesOneResponse : Prop :=
  ∀ (i : Instr) (s t : State), exec i s = .next t →
    (∃ r, t.rsps = s.rsps ++ [r]) ∧ t.cpc = s.cpc + 1 ∧ t.port = s.port ∧ t.params = s.params ∧ t.pending = s.pending

/-- R18: a command addressed to one part neither reads nor writes the other. -/
def Obligations.EncoderAndDecoderShareNoState : Prop :=
  (∀ (i : Instr) (s : State) (d : Dec), i.target = .enc →
    exec i { s with dec := d } = onNext (fun t => { t with dec := d }) (exec i s)) ∧
  (∀ (i : Instr) (s : State) (e : Enc), i.target = .dec →
    exec i { s with enc := e } = onNext (fun t => { t with enc := e }) (exec i s))

/-- R61 (the spec's decision D6): a command ignores the ports it does not use. -/
def Obligations.UnusedPortsHaveNoEffect : Prop :=
  ∀ (s : State) (c : Command),
    (c.vals = vin s → c.offset = seed s →
      exec .csort { s with port := c } = onNext (fun t => { t with port := c }) (exec .csort s)) ∧
    (c.vals = vin s →
      exec .cunsort { s with port := c } = onNext (fun t => { t with port := c }) (exec .cunsort s)) ∧
    (c.cbytes = cin s → c.offset = seed s →
      exec .usort { s with port := c } = onNext (fun t => { t with port := c }) (exec .usort s)) ∧
    (c.cbytes = cin s →
      exec .uunsort { s with port := c } = onNext (fun t => { t with port := c }) (exec .uunsort s))

/-- R94 and, for the decoder, R105: a command's observable result depends only on its operands and the build, never on
what earlier commands left. -/
def Obligations.ResultsDependOnlyOnOperands : Prop :=
  ∀ (i : Instr) (s₁ s₂ : State), s₁.wf = true → s₂.wf = true → s₂.params = s₁.params → s₂.port = s₁.port →
    ∃ t₁ t₂, exec i s₁ = .next t₁ ∧ exec i s₂ = .next t₂ ∧ t₁.response = t₂.response ∧
      (i.target = .enc → t₁.enc.outLen = t₂.enc.outLen ∧ t₁.view = t₂.view) ∧
      (i.target = .dec → t₁.dec.vlen = t₂.dec.vlen ∧ t₁.accessor = t₂.accessor)

/-- R37: a successful decode looks at no byte after its block, and R54 (the spec's decision D3): at no pad bit. -/
def Obligations.DecodersReadOnlyTheirFields : Prop :=
  ∀ (i : Instr) (s : State) (c : Command) (b : Byte) (rest rest' : List Byte),
    s.wf = true → i.target = .dec → cin s = b :: rest → b.toNat ≤ 32 → blen s.params.n b.toNat ≤ clen s →
    c.cbytes = b :: rest' → c.offset = seed s → plen s.params.n b.toNat ≤ rest'.length →
    (∀ q, q < s.params.n * b.toNat → streamBit s.params.packOrder rest' q = streamBit s.params.packOrder rest q) →
    exec i { s with port := c } = onNext (fun t => { t with port := c }) (exec i s)

/-! ## Invariants -/

/-- The form of the state that R10 to R16 and R22 give it is there after reset. -/
def Obligations.ResetStateIsWellFormed : Prop := State.reset.wf = true

/-- R10 to R16, R22: every step keeps the form: buffer sizes, a legal build, `DEC.vlen` 0 or `N`, and an encoder view
that is empty or exactly one block. -/
def Obligations.EveryStepKeepsTheForm : Prop :=
  ∀ s t : State, s.wf = true → step s = .next t → t.wf = true

/-- R119 (writes into `ENC.out`), R37 (reads of `CIN`), R124 and R133 (every command ends with a response): from a
well-formed state no command stops.  That each bounds check, those of `ENC.block` and `DEC.val` among them, is a fault
of its own name is the model's (DEDUCED, log entry 8). -/
def Obligations.NoCommandEverFaults : Prop :=
  ∀ (i : Instr) (s : State), s.wf = true → ∃ t, exec i s = .next t

/-- R119, R133: no run of any length over any host list faults, and what it reaches is well formed.  The faults are
the model's bounds checks (DEDUCED, log entry 8). -/
def Obligations.NoRunFaults : Prop :=
  ∀ (k : Nat) (s : State), s.wf = true →
    (∀ f, Host.Core.run Sys2Proof.core k s ≠ .fault f) ∧
    ∀ t, Host.Core.run Sys2Proof.core k s = .next t → t.wf = true
end

