-- ==== Sys2Proof/Laws/State.lean ====
section
/-! SUPPORT. One lemma per field per update of the state, true by `rfl`, and what raising an error leaves in each field. -/

namespace Sys2Proof.Machine

variable (s : State)

@[simp] theorem State.withBlock_params (block : List Word) : (s.withBlock block).params = s.params := rfl
@[simp] theorem State.withBlock_enc (block : List Word) : (s.withBlock block).enc = { s.enc with block := block } := rfl
@[simp] theorem State.withBlock_dec (block : List Word) : (s.withBlock block).dec = s.dec := rfl
@[simp] theorem State.withBlock_port (block : List Word) : (s.withBlock block).port = s.port := rfl
@[simp] theorem State.withBlock_pending (block : List Word) : (s.withBlock block).pending = s.pending := rfl
@[simp] theorem State.withBlock_rsps (block : List Word) : (s.withBlock block).rsps = s.rsps := rfl
@[simp] theorem State.withBlock_cpc (block : List Word) : (s.withBlock block).cpc = s.cpc := rfl
@[simp] theorem State.withBlock_draws (block : List Word) : (s.withBlock block).draws = s.draws := rfl

@[simp] theorem State.withBlockOut_params (out : Memory) (n : Nat) : (s.withBlockOut out n).params = s.params := rfl
@[simp] theorem State.withBlockOut_enc (out : Memory) (n : Nat) : (s.withBlockOut out n).enc = { s.enc with out := out, outLen := n } := rfl
@[simp] theorem State.withBlockOut_dec (out : Memory) (n : Nat) : (s.withBlockOut out n).dec = s.dec := rfl
@[simp] theorem State.withBlockOut_port (out : Memory) (n : Nat) : (s.withBlockOut out n).port = s.port := rfl
@[simp] theorem State.withBlockOut_pending (out : Memory) (n : Nat) : (s.withBlockOut out n).pending = s.pending := rfl
@[simp] theorem State.withBlockOut_rsps (out : Memory) (n : Nat) : (s.withBlockOut out n).rsps = s.rsps := rfl
@[simp] theorem State.withBlockOut_cpc (out : Memory) (n : Nat) : (s.withBlockOut out n).cpc = s.cpc := rfl
@[simp] theorem State.withBlockOut_draws (out : Memory) (n : Nat) : (s.withBlockOut out n).draws = s.draws := rfl

@[simp] theorem State.withValues_params (val : List Word) (n : Nat) : (s.withValues val n).params = s.params := rfl
@[simp] theorem State.withValues_enc (val : List Word) (n : Nat) : (s.withValues val n).enc = s.enc := rfl
@[simp] theorem State.withValues_dec (val : List Word) (n : Nat) : (s.withValues val n).dec = { val := val, vlen := n } := rfl
@[simp] theorem State.withValues_port (val : List Word) (n : Nat) : (s.withValues val n).port = s.port := rfl
@[simp] theorem State.withValues_pending (val : List Word) (n : Nat) : (s.withValues val n).pending = s.pending := rfl
@[simp] theorem State.withValues_rsps (val : List Word) (n : Nat) : (s.withValues val n).rsps = s.rsps := rfl
@[simp] theorem State.withValues_cpc (val : List Word) (n : Nat) : (s.withValues val n).cpc = s.cpc := rfl
@[simp] theorem State.withValues_draws (val : List Word) (n : Nat) : (s.withValues val n).draws = s.draws := rfl

@[simp] theorem State.respond_params (r : Response) : (s.respond r).params = s.params := rfl
@[simp] theorem State.respond_enc (r : Response) : (s.respond r).enc = s.enc := rfl
@[simp] theorem State.respond_dec (r : Response) : (s.respond r).dec = s.dec := rfl
@[simp] theorem State.respond_port (r : Response) : (s.respond r).port = s.port := rfl
@[simp] theorem State.respond_pending (r : Response) : (s.respond r).pending = s.pending := rfl
@[simp] theorem State.respond_rsps (r : Response) : (s.respond r).rsps = s.rsps ++ [r] := rfl
@[simp] theorem State.respond_cpc (r : Response) : (s.respond r).cpc = s.cpc + 1 := rfl
@[simp] theorem State.respond_draws (r : Response) : (s.respond r).draws = s.draws := rfl

@[simp] theorem State.present_params (c : Command) (rest : List HostEvent) : (s.present c rest).params = s.params := rfl
@[simp] theorem State.present_enc (c : Command) (rest : List HostEvent) : (s.present c rest).enc = s.enc := rfl
@[simp] theorem State.present_dec (c : Command) (rest : List HostEvent) : (s.present c rest).dec = s.dec := rfl
@[simp] theorem State.present_port (c : Command) (rest : List HostEvent) : (s.present c rest).port = c := rfl
@[simp] theorem State.present_pending (c : Command) (rest : List HostEvent) : (s.present c rest).pending = rest := rfl
@[simp] theorem State.present_rsps (c : Command) (rest : List HostEvent) : (s.present c rest).rsps = s.rsps := rfl
@[simp] theorem State.present_cpc (c : Command) (rest : List HostEvent) : (s.present c rest).cpc = s.cpc := rfl
@[simp] theorem State.present_draws (c : Command) (rest : List HostEvent) : (s.present c rest).draws = s.draws := rfl

@[simp] theorem State.resetUnit_params : (s.resetUnit).params = s.params := rfl
@[simp] theorem State.resetUnit_enc : (s.resetUnit).enc = Enc.reset s.params := rfl
@[simp] theorem State.resetUnit_dec : (s.resetUnit).dec = Dec.reset s.params := rfl
@[simp] theorem State.resetUnit_port : (s.resetUnit).port = s.port := rfl
@[simp] theorem State.resetUnit_pending : (s.resetUnit).pending = s.pending := rfl
@[simp] theorem State.resetUnit_rsps : (s.resetUnit).rsps = s.rsps := rfl
@[simp] theorem State.resetUnit_cpc : (s.resetUnit).cpc = s.cpc := rfl
@[simp] theorem State.resetUnit_draws : (s.resetUnit).draws = s.draws := rfl

@[simp] theorem State.raise_enc_params (e : ErrorCode) : (s.raise .enc e).params =
    s.params := rfl
@[simp] theorem State.raise_enc_enc (e : ErrorCode) : (s.raise .enc e).enc =
    { block := freeWords s.draws s.params.n, out := freeBytes s.draws (outCap s.params.n), outLen := 0 } := rfl
@[simp] theorem State.raise_enc_dec (e : ErrorCode) : (s.raise .enc e).dec =
    s.dec := rfl
@[simp] theorem State.raise_enc_port (e : ErrorCode) : (s.raise .enc e).port =
    s.port := rfl
@[simp] theorem State.raise_enc_pending (e : ErrorCode) : (s.raise .enc e).pending =
    s.pending := rfl
@[simp] theorem State.raise_enc_rsps (e : ErrorCode) : (s.raise .enc e).rsps =
    s.rsps ++ [.err e] := rfl
@[simp] theorem State.raise_enc_cpc (e : ErrorCode) : (s.raise .enc e).cpc =
    s.cpc + 1 := rfl
@[simp] theorem State.raise_enc_draws (e : ErrorCode) : (s.raise .enc e).draws =
    s.draws + 1 := rfl

@[simp] theorem State.raise_dec_params (e : ErrorCode) : (s.raise .dec e).params =
    s.params := rfl
@[simp] theorem State.raise_dec_enc (e : ErrorCode) : (s.raise .dec e).enc =
    s.enc := rfl
@[simp] theorem State.raise_dec_dec (e : ErrorCode) : (s.raise .dec e).dec =
    { val := freeWords s.draws s.params.decCap, vlen := 0 } := rfl
@[simp] theorem State.raise_dec_port (e : ErrorCode) : (s.raise .dec e).port =
    s.port := rfl
@[simp] theorem State.raise_dec_pending (e : ErrorCode) : (s.raise .dec e).pending =
    s.pending := rfl
@[simp] theorem State.raise_dec_rsps (e : ErrorCode) : (s.raise .dec e).rsps =
    s.rsps ++ [.err e] := rfl
@[simp] theorem State.raise_dec_cpc (e : ErrorCode) : (s.raise .dec e).cpc =
    s.cpc + 1 := rfl
@[simp] theorem State.raise_dec_draws (e : ErrorCode) : (s.raise .dec e).draws =
    s.draws + 1 := rfl

end Sys2Proof.Machine
end

