-- ==== Sys2Proof/Laws/Memory.lean ====
section
/-! SUPPORT. What the buffer operations can do, said once for each: the byte write and read, the slot write, one bit of
a value, and the buffers an error leaves. -/

namespace Sys2Proof.Machine

/-! ## One bit -/

theorem setBit_getLsbD {m : Nat} (x : BitVec m) (i j : Nat) (b : Bool) :
    (setBit x i b).getLsbD j = if j = i ∧ i < m then b else x.getLsbD j := by
  unfold setBit
  cases b <;> simp only [if_true, if_false, Bool.false_eq_true, BitVec.getLsbD_or, BitVec.getLsbD_and, BitVec.getLsbD_not,
    BitVec.getLsbD_twoPow]
  · by_cases h : j = i
    · subst h
      by_cases hm : j < m <;> simp [hm]
      exact BitVec.getLsbD_of_ge _ _ (by omega)
    · have h' : ¬ i = j := fun e => h e.symm
      by_cases hm : j < m <;> simp [h, h', hm]
      exact BitVec.getLsbD_of_ge _ _ (by omega)
  · by_cases h : j = i
    · subst h
      by_cases hm : j < m <;> simp [hm]
    · have h' : ¬ i = j := fun e => h e.symm
      simp [h, h']

/-! ## Bytes of `ENC.out` -/

theorem memWrite_ok {m m' : Memory} {j : Nat} {b : Byte} (h : memWrite m j b = .ok m') :
    j < m.length ∧ m' = m.set j b := by
  unfold memWrite at h
  split at h
  · exact ⟨‹_›, by cases h; rfl⟩
  · cases h

theorem memWrite_of_lt {m : Memory} {j : Nat} (b : Byte) (h : j < m.length) : memWrite m j b = .ok (m.set j b) := by
  simp [memWrite, h]

/-- A byte write fails only outside the buffer, and then by name: no byte is dropped silently (R119). -/
theorem memWrite_error {m : Memory} {j : Nat} {b : Byte} {e : Stop} (h : memWrite m j b = .error e) :
    m.length ≤ j ∧ e = .broken .outBufferOverrun := by
  unfold memWrite at h
  split at h
  · cases h
  · exact ⟨by omega, by cases h; rfl⟩

theorem memWrite_read {m m' : Memory} {j : Nat} {b : Byte} (h : memWrite m j b = .ok m') (i : Nat) :
    m'[i]? = if i = j then some b else m[i]? := by
  obtain ⟨hj, rfl⟩ := memWrite_ok h
  by_cases hij : i = j
  · subst hij; simp [hj]
  · have hji : ¬ j = i := fun e => hij e.symm
    simp [hij, hji]

/-- A byte write keeps the form of the space. -/
theorem memWrite_wf {cap : Nat} {m m' : Memory} {j : Nat} {b : Byte} (hm : m.wf cap = true)
    (h : memWrite m j b = .ok m') : m'.wf cap = true := by
  obtain ⟨-, rfl⟩ := memWrite_ok h
  simpa [Memory.wf] using hm

theorem reset_memory_wf : Memory.wf (outCap State.reset.params.n) State.reset.enc.out = true := by
  simp [Memory.wf, State.reset, State.resetWith, Enc.reset, outCap]

/-! ## Bytes of `CIN` -/

theorem memRead_of_lt {bytes : List Byte} {j : Nat} (h : j < bytes.length) : memRead bytes j = .ok (bytes.getD j 0) := by
  simp [memRead, h]

theorem memRead_ok {bytes : List Byte} {j : Nat} {b : Byte} (h : memRead bytes j = .ok b) : bytes[j]? = some b := by
  unfold memRead at h
  split at h
  · cases h; assumption
  · cases h

/-! ## Word slots -/

theorem storeSlots_ok {slots values slots' : List Word} (h : storeSlots slots values = .ok slots') :
    values.length ≤ slots.length ∧ slots' = values ++ slots.drop values.length := by
  unfold storeSlots at h
  split at h
  · exact ⟨‹_›, by cases h; rfl⟩
  · cases h

theorem storeSlots_of_le {slots values : List Word} (h : values.length ≤ slots.length) :
    storeSlots slots values = .ok (values ++ slots.drop values.length) := by
  simp [storeSlots, h]

theorem storeSlots_length {slots values slots' : List Word} (h : storeSlots slots values = .ok slots') :
    slots'.length = slots.length := by
  obtain ⟨hl, rfl⟩ := storeSlots_ok h
  simp; omega

/-! ## The buffers an error leaves -/

@[simp] theorem freeWords_length (draw count : Nat) : (freeWords draw count).length = count := by simp [freeWords]

@[simp] theorem freeBytes_length (draw count : Nat) : (freeBytes draw count).length = count := by simp [freeBytes]

/-- An error keeps the form of `ENC.out`. -/
theorem freeBytes_wf (draw cap : Nat) : Memory.wf cap (freeBytes draw cap) = true := by simp [Memory.wf]

end Sys2Proof.Machine
end

