-- ==== Sys2Proof/Laws/Reader.lean ====
section
/-! SUPPORT. What the width-byte reader and the bit reader can do. -/

namespace Sys2Proof.Machine

/-- The width-byte reader, case by case, in the order of its checks (R72, R120). -/
theorem hdrGet_cases (n : Nat) (bytes : List Byte) :
    (bytes = [] ∧ hdrGet n bytes = .error (.raised .truncatedInput)) ∨
    ∃ b rest, bytes = b :: rest ∧
      ((wMax < b.toNat ∧ hdrGet n bytes = .error (.raised .invalidBitWidth)) ∨
       (b.toNat ≤ wMax ∧ bytes.length < blen n b.toNat ∧ hdrGet n bytes = .error (.raised .truncatedInput)) ∨
       (b.toNat ≤ wMax ∧ blen n b.toNat ≤ bytes.length ∧ hdrGet n bytes = .ok b.toNat)) := by
  cases bytes with
  | nil => exact .inl ⟨rfl, by simp [hdrGet]⟩
  | cons b rest =>
    refine .inr ⟨b, rest, rfl, ?_⟩
    have hr : memRead (b :: rest) 0 = .ok b := by simp [memRead]
    have hg : hdrGet n (b :: rest) =
        if wMax < b.toNat then .error (.raised .invalidBitWidth)
        else if (b :: rest).length < blen n b.toNat then .error (.raised .truncatedInput) else .ok b.toNat := by
      unfold hdrGet
      rw [if_neg (by simp), hr]
      rfl
    rw [hg]
    by_cases h1 : wMax < b.toNat
    · exact .inl ⟨h1, by rw [if_pos h1]⟩
    · by_cases h2 : (b :: rest).length < blen n b.toNat
      · exact .inr (.inl ⟨by omega, h2, by rw [if_neg h1, if_pos h2]⟩)
      · exact .inr (.inr ⟨by omega, by omega, by rw [if_neg h1, if_neg h2]⟩)

theorem payload_length {n w : Nat} {bytes : List Byte} (h : blen n w ≤ bytes.length) :
    (payload n w bytes).length = plen n w := by
  unfold blen at h
  simp [payload]; omega

/-- The bit index of a field's bit lies inside the payload (R76). -/
theorem fieldIndex_lt {n w i k : Nat} (hi : i < n) (hk : k < w) : (i * w + k) / 8 < plen n w := by
  have h : (i + 1) * w ≤ n * w := Nat.mul_le_mul_right w hi
  rw [Nat.add_mul, Nat.one_mul] at h
  unfold plen
  omega

/-- One bit of a field, in a payload that holds it: `r[k] <- P[q div 8][q mod 8]` (R76). -/
theorem bitrBit_ok {o : PackOrder} {bytes : List Byte} {w i k : Nat} (r : Word) (h : (i * w + k) / 8 < bytes.length) :
    bitrBit o bytes w i r k = .ok (setBit r (valueBit o w k) (streamBit o bytes (i * w + k))) := by
  unfold bitrBit
  rw [memRead_of_lt h]
  rfl

theorem bitrFold_ok {o : PackOrder} {bytes : List Byte} {w i : Nat} (ks : List Nat) (r : Word)
    (h : ∀ k ∈ ks, (i * w + k) / 8 < bytes.length) :
    ks.foldlM (bitrBit o bytes w i) r =
      .ok (ks.foldl (fun r k => setBit r (valueBit o w k) (streamBit o bytes (i * w + k))) r) := by
  induction ks generalizing r with
  | nil => rfl
  | cons k ks ih =>
    rw [List.foldlM_cons, bitrBit_ok r (h k (by simp))]
    exact ih _ fun k' hk' => h k' (by simp [hk'])

/-- A field of a payload that is wholly there is read without a fault (R37, R76). -/
theorem bitrGet_ok {o : PackOrder} {bytes : List Byte} {n w i : Nat} (hl : plen n w ≤ bytes.length) (hi : i < n) :
    bitrGet o bytes w i =
      .ok ((List.range w).foldl (fun r k => setBit r (valueBit o w k) (streamBit o bytes (i * w + k))) 0) :=
  bitrFold_ok _ _ fun k hk => by
    have := fieldIndex_lt hi (List.mem_range.mp hk)
    omega

theorem mapM_ok {α β : Type} {f : α → Run β} {g : α → β} (xs : List α) (h : ∀ x ∈ xs, f x = .ok (g x)) :
    xs.mapM f = .ok (xs.map g) := by
  induction xs with
  | nil => rfl
  | cons x xs ih =>
    rw [List.mapM_cons, h x (by simp), ih fun y hy => h y (by simp [hy])]
    rfl

/-- All fields of a payload that is wholly there (R100, R101). -/
theorem unpack_ok {o : PackOrder} {n w : Nat} {bytes : List Byte} (hl : plen n w ≤ bytes.length) :
    unpack o n w bytes = .ok ((List.range n).map fun i =>
      (List.range w).foldl (fun r k => setBit r (valueBit o w k) (streamBit o bytes (i * w + k))) 0) :=
  mapM_ok _ fun _ hi => bitrGet_ok hl (List.mem_range.mp hi)

/-- The running sums stop only with an overflow, and there are as many as there are deltas (R84, R100). -/
theorem runningSums_cases (acc : Word) (d : List Word) :
    runningSums acc d = .error (.raised .accumulatorOverflow) ∨
      ∃ vs, runningSums acc d = .ok vs ∧ vs.length = d.length := by
  induction d generalizing acc with
  | nil => exact .inr ⟨[], rfl, rfl⟩
  | cons x d ih =>
    unfold runningSums accum
    split
    · exact .inl rfl
    · rcases ih (BitVec.ofNat 32 (acc.toNat + x.toNat)) with h | ⟨vs, h, hl⟩
      · left
        show (runningSums _ d >>= _) = _
        rw [h]; rfl
      · refine .inr ⟨BitVec.ofNat 32 (acc.toNat + x.toNat) :: vs, ?_, by simp [hl]⟩
        show (runningSums _ d >>= _) = _
        rw [h]; rfl

/-- The delta transform stops only with a precedence violation, and there are as many deltas as values (R78). -/
theorem deltaLoop_cases (pred maxv : Word) (values : List Word) :
    deltaLoop pred maxv values = .error (.raised .precedenceViolation) ∨
      ∃ d m, deltaLoop pred maxv values = .ok (d, m) ∧ d.length = values.length := by
  induction values generalizing pred maxv with
  | nil => exact .inr ⟨[], maxv, rfl, rfl⟩
  | cons v vs ih =>
    unfold deltaLoop
    split
    · exact .inl rfl
    · rcases ih v (maxWord maxv (v - pred)) with h | ⟨d, m, h, hl⟩
      · left; rw [h]; rfl
      · exact .inr ⟨(v - pred) :: d, m, by rw [h]; rfl, by simp [hl]⟩

end Sys2Proof.Machine
end

