-- ==== Sys2Proof/Laws/Writer.lean ====
section
/-! SUPPORT. What the bit-width estimator, the bit writer and the block writer can do: where they succeed, how far they get, and which bytes
they leave alone. -/

namespace Sys2Proof.Machine

/-! ## Bit-width estimator -/

theorem bitWidthLoop_spec (m fuel b : Nat) (hm : m < 2 ^ (b + fuel)) :
    m < 2 ^ bitWidthLoop m fuel b ∧ b ≤ bitWidthLoop m fuel b ∧ bitWidthLoop m fuel b ≤ b + fuel ∧
      ∀ c, b ≤ c → c < bitWidthLoop m fuel b → 2 ^ c ≤ m := by
  induction fuel generalizing b with
  | zero => exact ⟨by simpa [bitWidthLoop] using hm, le_refl _, le_refl _, fun c h1 h2 => by simp [bitWidthLoop] at h2; omega⟩
  | succ fuel ih =>
    unfold bitWidthLoop
    split
    · rename_i hb
      obtain ⟨h1, h2, h3, h4⟩ := ih (b + 1) (by rw [show b + 1 + fuel = b + (fuel + 1) by omega]; exact hm)
      refine ⟨h1, by omega, by omega, fun c hbc hc => ?_⟩
      by_cases hcb : c = b
      · rw [hcb]; exact hb
      · exact h4 c (by omega) hc
    · rename_i hb
      exact ⟨by omega, le_refl _, by omega, fun c h1 h2 => by omega⟩

/-- A 32-bit maximum has a legal width (R70, R80). -/
theorem bitWidth_word_le (v : Word) : bitWidth (v.zeroExtend 64) ≤ wMax := by
  have hv : (v.zeroExtend 64).toNat = v.toNat := by simp; omega
  obtain ⟨-, -, -, h⟩ := bitWidthLoop_spec v.toNat 64 0 (by have := v.isLt; omega)
  unfold bitWidth
  rw [hv]
  by_contra hc
  have h32 := h 32 (by omega) (by unfold wMax at hc; omega)
  have := v.isLt
  omega

/-! ## Lengths -/

/-- The capacity bound the block writer rests on (R81). -/
theorem blen_le_outCap {n w : Nat} (hw : w ≤ wMax) : blen n w ≤ outCap n := by
  have h : n * w ≤ n * 32 := Nat.mul_le_mul_left n hw
  unfold blen plen outCap
  omega

/-! ## Bit writer -/

/-- One bit: the position moves by one, and the sink keeps its length and its width byte (R73). -/
theorem bitwBit_ok (p : Params) (k : Writer) (b : Bool) (h : k.wpos + 1 ≤ 8 * (k.out.length - 1)) :
    ∃ k', bitwBit p k b = .ok k' ∧ k'.wpos = k.wpos + 1 ∧ k'.out.length = k.out.length ∧ k'.out[0]? = k.out[0]? := by
  unfold bitwBit
  dsimp only
  split
  · rename_i h8
    have hlt : (k.wpos + 1) / 8 < k.out.length := by omega
    have hpos : (k.wpos + 1) / 8 ≠ 0 := by omega
    rw [memWrite_of_lt _ hlt]
    refine ⟨_, rfl, rfl, by simp, ?_⟩
    simp [hpos]
  · exact ⟨_, rfl, rfl, rfl, rfl⟩

theorem bits_ok (p : Params) (bs : List Bool) (k : Writer) (h : k.wpos + bs.length ≤ 8 * (k.out.length - 1)) :
    ∃ k', bs.foldlM (bitwBit p) k = .ok k' ∧ k'.wpos = k.wpos + bs.length ∧ k'.out.length = k.out.length ∧
      k'.out[0]? = k.out[0]? := by
  induction bs generalizing k with
  | nil => exact ⟨k, rfl, rfl, rfl, rfl⟩
  | cons b bs ih =>
    simp only [List.length_cons] at h
    obtain ⟨k1, h1, hw1, ho1, hz1⟩ := bitwBit_ok p k b (by omega)
    obtain ⟨k2, h2, hw2, ho2, hz2⟩ := ih k1 (by rw [hw1, ho1]; omega)
    refine ⟨k2, ?_, by simp; omega, by omega, by rw [hz2, hz1]⟩
    rw [List.foldlM_cons, h1]
    exact h2

@[simp] theorem fieldBits_length (o : PackOrder) (w : Nat) (v : Word) : (fieldBits o w v).length = w := by
  simp [fieldBits]

theorem writes_ok (p : Params) (w : Nat) (values : List Word) (k : Writer)
    (h : k.wpos + values.length * w ≤ 8 * (k.out.length - 1)) :
    ∃ k', values.foldlM (bitwWrite p w) k = .ok k' ∧ k'.wpos = k.wpos + values.length * w ∧
      k'.out.length = k.out.length ∧ k'.out[0]? = k.out[0]? := by
  induction values generalizing k with
  | nil => exact ⟨k, rfl, by simp, rfl, rfl⟩
  | cons v vs ih =>
    simp only [List.length_cons, Nat.add_mul, Nat.one_mul] at h ⊢
    obtain ⟨k1, h1, hw1, ho1, hz1⟩ := bits_ok p (fieldBits p.packOrder w v) k (by rw [fieldBits_length]; omega)
    rw [fieldBits_length] at hw1
    obtain ⟨k2, h2, hw2, ho2, hz2⟩ := ih k1 (by rw [hw1, ho1]; omega)
    refine ⟨k2, ?_, by omega, by omega, by rw [hz2, hz1]⟩
    rw [List.foldlM_cons]
    unfold bitwWrite
    rw [h1]
    exact h2

theorem bitwClose_ok (k : Writer) (h : k.wpos ≤ 8 * (k.out.length - 1)) :
    ∃ out, bitwClose k = .ok (out, (k.wpos + 7) / 8) ∧ out.length = k.out.length ∧ out[0]? = k.out[0]? := by
  unfold bitwClose
  split
  · have hlt : 1 + k.wpos / 8 < k.out.length := by omega
    rw [memWrite_of_lt _ hlt]
    exact ⟨_, rfl, by simp, by simp⟩
  · exact ⟨_, rfl, rfl, rfl⟩

/-- The block writer in a buffer that has room: it succeeds, keeps the buffer's length, puts the width byte first, and
reports `PLEN(w)` (R71, R74, R79). -/
theorem emitBlock_ok (p : Params) (w : Nat) (values : List Word) (out : Memory)
    (h : blen values.length w ≤ out.length) :
    ∃ out', emitBlock p w values out = .ok (out', plen values.length w) ∧ out'.length = out.length ∧
      out'[0]? = some (BitVec.ofNat 8 w) := by
  have h0 : 0 < out.length := by unfold blen at h; omega
  have hbits : values.length * w ≤ 8 * (out.length - 1) := by unfold blen plen at h; omega
  obtain ⟨k, hk, hw, ho, hz⟩ := writes_ok p w values (bitwOpen p (out.set 0 (BitVec.ofNat 8 w)))
    (by simpa [bitwOpen] using hbits)
  have hw' : k.wpos = values.length * w := by rw [hw]; exact Nat.zero_add _
  have ho' : k.out.length = out.length := by rw [ho]; simp [bitwOpen]
  obtain ⟨out', hc, hl, hz'⟩ := bitwClose_ok k (by rw [hw', ho']; exact hbits)
  refine ⟨out', ?_, by omega, ?_⟩
  · unfold emitBlock hdrPut
    rw [memWrite_of_lt _ h0]
    show (values.foldlM (bitwWrite p w) _ >>= bitwClose) = _
    rw [hk]
    show bitwClose k = _
    rw [hc, hw']
    rfl
  · rw [hz', hz]
    simp [bitwOpen, h0]

end Sys2Proof.Machine
end

