-- ==== Sys2Proof/Laws/Commands.lean ====
section
/-! SUPPORT. How a command ends, and what the shared pieces of the four commands can do. -/

namespace Sys2Proof.Machine

/-- The three ways a command ends (R62, R119, R121). -/
theorem finish_cases (t : Target) (s : State) (r : Run (State × Nat)) :
    (∃ s' n, r = .ok (s', n) ∧ finish t s r = .next (s'.respond (.ok n))) ∨
    (∃ e, r = .error (.raised e) ∧ finish t s r = .next (s.raise t e)) ∨
    (∃ f, r = .error (.broken f) ∧ finish t s r = .fault f) := by
  rcases r with ⟨e | f⟩ | ⟨s', n⟩
  · exact .inr (.inl ⟨e, rfl, rfl⟩)
  · exact .inr (.inr ⟨f, rfl, rfl⟩)
  · exact .inl ⟨s', n, rfl, rfl⟩

/-- If a command answers a next state, it ended with `OK` or took an error. -/
theorem finish_next {t : Target} {s u : State} {r : Run (State × Nat)} (h : finish t s r = .next u) :
    (∃ s' n, r = .ok (s', n) ∧ u = s'.respond (.ok n)) ∨ (∃ e, r = .error (.raised e) ∧ u = s.raise t e) := by
  rcases finish_cases t s r with ⟨s', n, hr, hf⟩ | ⟨e, hr, hf⟩ | ⟨f, -, hf⟩
  · rw [hf] at h; cases h; exact .inl ⟨s', n, hr, rfl⟩
  · rw [hf] at h; cases h; exact .inr ⟨e, hr, rfl⟩
  · rw [hf] at h; cases h

/-- Writing a block where the buffer has room (R79, R91). -/
theorem compressAt_ok {w : Nat} {d : List Word} {s : State} (h : blen d.length w ≤ s.enc.out.length) :
    ∃ out, compressAt w d s = .ok (s.withBlockOut out (blen d.length w), blen d.length w) ∧
      out.length = s.enc.out.length ∧ out[0]? = some (BitVec.ofNat 8 w) := by
  obtain ⟨out, he, hl, hz⟩ := emitBlock_ok s.params w d s.enc.out h
  exact ⟨out, by unfold compressAt; rw [he]; rfl, hl, hz⟩

/-- Reading a block: one of the three header errors, in their order, or the width and `N` fields (R72, R100, R101). -/
theorem readBlock_cases (s : State) :
    (hdrGet s.params.n (cin s) = .error (.raised .truncatedInput) ∧ readBlock s = .error (.raised .truncatedInput)) ∨
    (hdrGet s.params.n (cin s) = .error (.raised .invalidBitWidth) ∧ readBlock s = .error (.raised .invalidBitWidth)) ∨
    ∃ w d, hdrGet s.params.n (cin s) = .ok w ∧ w ≤ wMax ∧ blen s.params.n w ≤ (cin s).length ∧
      d.length = s.params.n ∧ readBlock s = .ok (w, d) := by
  have bad : ∀ e, hdrGet s.params.n (cin s) = .error e → readBlock s = .error e := by
    intro e he; unfold readBlock; rw [he]; rfl
  rcases hdrGet_cases s.params.n (cin s) with ⟨-, h⟩ | ⟨b, rest, hb, ⟨-, h⟩ | ⟨-, -, h⟩ | ⟨h1, h2, h⟩⟩
  · exact .inl ⟨h, bad _ h⟩
  · exact .inr (.inl ⟨h, bad _ h⟩)
  · exact .inl ⟨h, bad _ h⟩
  · obtain ⟨d, hd, hl⟩ : ∃ d, unpack s.params.packOrder s.params.n b.toNat (payload s.params.n b.toNat (cin s)) = .ok d ∧
        d.length = s.params.n := ⟨_, unpack_ok (by rw [payload_length h2]), by simp⟩
    refine .inr (.inr ⟨b.toNat, d, h, h1, h2, hl, ?_⟩)
    unfold readBlock
    rw [h]
    show (unpack _ _ _ _ >>= _) = _
    rw [hd]
    rfl

/-- Filling the slots of `DEC.val` where it has `N` of them (R100, R101). -/
theorem deliver_ok {w : Nat} {values : List Word} {s : State} (h : values.length ≤ s.dec.val.length) :
    deliver w values s =
      .ok (s.withValues (values ++ s.dec.val.drop values.length) s.params.n, blen s.params.n w) := by
  unfold deliver
  rw [storeSlots_of_le h]
  rfl

end Sys2Proof.Machine
end

