-- ==== Sys2Proof/Laws/PerInstr.lean ====
section
/-! SUPPORT. Facts about each command as syntax, one lemma per constructor: its reserved bits are 0, its `DIR` bit says
which part it is addressed to (R60), and each of its names stands for it alone (R66). -/

namespace Sys2Proof.Laws.CommandWord

/-- The word of a command obeys the field table of R60, and its names lead back to it (R66). -/
def Statement (i : Instr) : Prop :=
  opRsv (encode i) = 0 ∧ (opDir (encode i) = true ↔ i.target = .dec) ∧
    ∀ name ∈ i.mnemonic :: i.otherNames, Instr.ofName name = some i

theorem csort : Statement .csort := by unfold Statement; decide

theorem cunsort : Statement .cunsort := by unfold Statement; decide

theorem usort : Statement .usort := by unfold Statement; decide

theorem uunsort : Statement .uunsort := by unfold Statement; decide

end Sys2Proof.Laws.CommandWord
end

