-- ==== Sys2Proof/Laws/Step.lean ====
section
/-! SUPPORT. What a step can do: one case for each kind of entry of the host's list. -/

namespace Sys2Proof.Machine

/-- The inversion of `step`: if it answers `t`, then one of these cases holds. -/
theorem step_next {s t : State} (h : step s = .next t) :
    (s.pending = [] ∧ t = s) ∨
    (∃ c rest i, s.pending = .present c :: rest ∧ c.wf s.params i = true ∧ decodeOp c.op = .ok i ∧
      exec i (s.present c rest) = .next t) ∨
    (∃ c rest e, s.pending = .present c :: rest ∧ decodeOp c.op = .error e ∧
      t = (s.present c rest).respond (.err .illegalCommand)) ∨
    (∃ rest, s.pending = .reset :: rest ∧ t = { s with pending := rest }.resetUnit) := by
  unfold step fetch at h
  cases hp : s.pending with
  | nil => rw [hp] at h; cases h; exact .inl ⟨rfl, rfl⟩
  | cons ev rest =>
    rw [hp] at h
    cases ev with
    | present c =>
      simp only [fetchCommand] at h
      cases hd : decodeOp c.op with
      | ok i =>
        rw [hd] at h
        by_cases hc : c.wf s.params i = true
        · simp only [hc, if_true] at h; exact .inr (.inl ⟨c, rest, i, rfl, hc, hd, h⟩)
        · simp only [hc] at h; cases h
      | error e => rw [hd] at h; cases h; exact .inr (.inr (.inl ⟨c, rest, e, rfl, hd, rfl⟩))
    | reset => cases h; exact .inr (.inr (.inr ⟨rest, rfl, rfl⟩))
    | breach b => cases h

/-- The unit after reset is well formed in every legal build (R23). -/
theorem resetWith_wf {p : Params} (h : p.wf = true) : (State.resetWith p).wf = true := by
  simp [State.wf, State.resetWith, h, Enc.wf, Enc.reset, Enc.legalView, Memory.wf, outCap, Dec.wf, Dec.reset]

/-- A reset between commands keeps the form (R141). -/
theorem resetUnit_wf {s : State} (h : s.wf = true) : s.resetUnit.wf = true := by
  simp only [State.wf, Bool.and_eq_true] at h ⊢
  simp [h, Enc.wf, Enc.reset, Enc.legalView, Memory.wf, outCap, Dec.wf, Dec.reset]

/-- Taking an error keeps the form (R121). -/
theorem raise_wf {s : State} (h : s.wf = true) (t : Target) (e : ErrorCode) : (s.raise t e).wf = true := by
  simp only [State.wf, Bool.and_eq_true] at h ⊢
  cases t <;> simp_all [Enc.wf, Enc.legalView, Memory.wf, Dec.wf]

end Sys2Proof.Machine
end

