-- ==== Sys2Proof/Tests/Slice0.lean ====
section
/-! SUPPORT. Our own tests.  Expected values come from spec/95_test_vectors.md (the vector's name stands in each
comment) or from the spec's text; the witnesses at the end meet the hypotheses of the statements. -/

namespace Sys2Proof.Tests

open Sys2Proof Sys2Proof.Machine

/-! ## Helpers -/

/-- Words from numbers. -/
def words (vs : List Nat) : List Word := vs.map (BitVec.ofNat 32)

/-- Bytes from numbers. -/
def bytes (bs : List Nat) : List Byte := bs.map (BitVec.ofNat 8)

/-- The unit of block size `n` after reset, with a command's operands on its port. -/
def ported (n : Nat) (offset : Nat) (vs bs : List Nat) : State :=
  { State.resetWith (Params.ofN n) with
    port := { op := 0, offset := BitVec.ofNat 32 offset, vals := words vs, cbytes := bytes bs } }

/-- The unit of block size `n` after reset, whose host will present this command next. -/
def presenting (n op offset : Nat) (vs bs : List Nat) : State :=
  { State.resetWith (Params.ofN n) with
    pending := [.present
      { op := BitVec.ofNat 8 op, offset := BitVec.ofNat 32 offset, vals := words vs, cbytes := bytes bs }] }

/-- Whether an outcome is a next state. -/
def isNext : Host.Outcome State Fault Refusal → Bool
  | .next _ => true
  | .fault _ => false
  | .refused _ => false

/-- The next state of an outcome. -/
def after : Host.Outcome State Fault Refusal → State
  | .next t => t
  | .fault _ => State.reset
  | .refused _ => State.reset

/-- What the host sees after a step: the response, the view and the accessor. -/
def seen (s : State) : Option Response × List Byte × List Word := (s.response, s.view, s.accessor)

theorem next_after {o : Host.Outcome State Fault Refusal} (h : isNext o = true) : o = .next (after o) := by
  cases o with
  | next t => rfl
  | fault f => cases h
  | refused r => cases h

/-! ## Well-formedness smoke tests: an ill-formed term for each check -/

theorem test_block_size_zero_is_ill_formed : (Params.ofN 0).wf = false := by decide

theorem test_too_few_slots_is_ill_formed : ({ Params.ofN 4 with decCap := 3 } : Params).wf = false := by decide

theorem test_too_many_words_is_ill_formed :
    (Command.mk 0 0 (words [1, 2, 3, 4]) []).wf { Params.ofN 4 with lw := 2 } .csort = false := by decide

theorem test_too_many_bytes_is_ill_formed :
    (Command.mk 2 0 [] (bytes [1, 0, 0, 0])).wf { Params.ofN 4 with lw := 2 } .usort = false := by decide

theorem test_default_build_is_well_formed : Params.default.wf = true := by decide

/-! ## Decoding: the words of R60 and spec/opcode_table.json, bit by bit; E23, E24 -/

theorem test_decode_csort : decodeTableWord 8 0b00000000 = some .csort := by decide
theorem test_decode_cunsort : decodeTableWord 8 0b00000001 = some .cunsort := by decide
theorem test_decode_usort : decodeTableWord 8 0b00000010 = some .usort := by decide
theorem test_decode_uunsort : decodeTableWord 8 0b00000011 = some .uunsort := by decide
theorem test_decode_reserved : decodeTableWord 8 0b00000100 = none ∧ decodeTableWord 8 0b10000001 = none := by decide

/-! ## Primitives -/

/-- B1, B4, B7, B8, B9, B12, B13, B14. -/
theorem test_bit_width :
    [0, 3, 8, 255, 256, 0x7FFFFFFF, 0x80000000, 0xFFFFFFFF].map (fun m => bitWidth (BitVec.ofNat 64 m)) =
      [0, 2, 4, 8, 9, 31, 32, 32] := by decide

/-- L1, L3, L5, L7, L10, L11, L14, L16. -/
theorem test_block_length :
    [(128, 0), (128, 7), (128, 32), (4, 1), (4, 13), (4, 31), (5, 9), (1, 3)].map (fun q => blen q.1 q.2) =
      [1, 113, 513, 2, 8, 17, 7, 2] := by decide

/-- K3, K7, K10. -/
theorem test_pack :
    pack (Params.ofN 8) 3 (words [1, 2, 3, 4, 5, 6, 7, 0]) = bytes [0xD1, 0x58, 0x1F] ∧
    pack (Params.ofN 5) 3 (words [7, 7, 7, 7, 7]) = bytes [0xFF, 0x7F] ∧
    pack (Params.ofN 4) 13 (words [0x1234, 1, 0x1FFF, 0x0ABC]) = bytes [0x34, 0x32, 0, 0xFC, 0x7F, 0x5E, 0x05] := by
  decide

/-- K1, K2, K3, column "if MSB-first". -/
theorem test_pack_msb_first :
    pack { Params.ofN 4 with packOrder := .msbFirst } 2 (words [0, 2, 0, 3]) = bytes [0x23] ∧
    pack { Params.ofN 4 with packOrder := .msbFirst } 1 (words [1, 0, 1, 0]) = bytes [0xA0] ∧
    pack { Params.ofN 8 with packOrder := .msbFirst } 3 (words [1, 2, 3, 4, 5, 6, 7, 0]) = bytes [0x29, 0xCB, 0xB8] := by
  decide

/-- T1, T2, T4, T5. -/
theorem test_delta :
    delta 5 (words [5, 7, 7, 10]) = .ok (words [0, 2, 0, 3], 3) ∧
    delta 0 (words [5, 7, 7, 10]) = .ok (words [5, 2, 0, 3], 5) ∧
    delta 5 (words [5, 7, 6, 10]) = .error (.raised .precedenceViolation) ∧
    delta 0 (words [0xFFFFFFFF, 0xFFFFFFFF]) = .ok (words [0xFFFFFFFF, 0], 0xFFFFFFFF) := by decide

/-- A1, A2, A3, A4, A5. -/
theorem test_accum :
    accum 5 2 = .ok 7 ∧ accum 0xFFFFFFFF 0 = .ok 0xFFFFFFFF ∧
    accum 0xFFFFFFFF 1 = .error (.raised .accumulatorOverflow) ∧ accum 0xFFFFFFFC 3 = .ok 0xFFFFFFFF ∧
    accum 0x80000000 0x80000000 = .error (.raised .accumulatorOverflow) := by decide

/-- H1, H2, H3, H4, H7. -/
theorem test_header :
    hdrGet 4 [] = .error (.raised .truncatedInput) ∧ hdrGet 4 (bytes [0]) = .ok 0 ∧
    hdrGet 4 (bytes [2]) = .error (.raised .truncatedInput) ∧ hdrGet 4 (bytes [2, 0xC8]) = .ok 2 ∧
    hdrGet 4 (bytes [0x21]) = .error (.raised .invalidBitWidth) := by decide

/-! ## Commands, by a step each -/

/-- V7: a sorted block of eight values. -/
theorem test_csort :
    seen (after (step (presenting 8 0 100 [100, 103, 110, 110, 125, 130, 131, 160] []))) =
      (some (.ok 6), bytes [0x05, 0x60, 0x1C, 0xF0, 0x4A, 0xE8], []) := by decide

/-- E4: a decrease at index 2. -/
theorem test_csort_decrease :
    seen (after (step (presenting 4 0 5 [5, 7, 6, 10] []))) = (some (.err .precedenceViolation), [], []) := by decide

/-- V17: width 31, pad bits 0. -/
theorem test_cunsort :
    seen (after (step (presenting 4 1 0 [0x7FFFFFFF, 1, 2, 3] []))) =
      (some (.ok 17), bytes [0x1F, 0xFF, 0xFF, 0xFF, 0xFF, 0, 0, 0, 0x80, 0, 0, 0, 0x60, 0, 0, 0, 0], []) := by decide

/-- E8: an empty operand. -/
theorem test_cunsort_empty : seen (after (step (presenting 4 1 0 [] []))) = (some (.err .emptyInput), [], []) := by
  decide

/-- W2: a byte after the block is not consumed. -/
theorem test_usort :
    seen (after (step (presenting 4 2 5 [] [0x02, 0xC8, 0xAA]))) = (some (.ok 2), [], words [5, 7, 7, 10]) := by decide

/-- E19: the last running sum overflows. -/
theorem test_usort_overflow :
    seen (after (step (presenting 4 2 0xFFFFFFFD [] [0x02, 0xC8]))) = (some (.err .accumulatorOverflow), [], []) := by
  decide

/-- U6: pad bits are ignored. -/
theorem test_uunsort :
    seen (after (step (presenting 4 3 0 [] [0x01, 0xFB]))) = (some (.ok 2), [], words [1, 1, 0, 1]) := by decide

/-- E17: a payload byte is missing. -/
theorem test_uunsort_truncated :
    seen (after (step (presenting 4 3 0 [] [0x03, 0x0D]))) = (some (.err .truncatedInput), [], []) := by decide

/-- E23: a reserved word changes nothing. -/
theorem test_reserved_word :
    let t := after (step (presenting 4 0x04 0 [] []))
    t.response = some (.err .illegalCommand) ∧ t.enc = Enc.reset (Params.ofN 4) ∧ t.dec = Dec.reset (Params.ofN 4) := by
  decide

/-- The host's probe: the placed word is what the next step runs, as the first command after reset. -/
theorem test_with_fetch_word :
    (after (step (State.reset.withFetchWord 8 0b00000011))).response = some (.err .truncatedInput) := by decide

/-! ## Witnesses of the statements' hypotheses -/

/-- A sorted block of two values on the port. -/
def sortedPort : State := ported 2 3 [3, 9] []

/-- Its values decrease. -/
def unsortedPort : State := ported 2 3 [9, 3] []

/-- A block of width 2 for two values on the port, with a byte after it. -/
def blockPort (offset : Nat) : State := ported 2 offset [] [0x02, 0x0E, 0xAA]

/-- A width byte just too large. -/
def overwidePort : State := ported 2 0 [] [0x21]

/-- A block of the largest width, one byte short. -/
def shortPort : State := ported 2 0 [] [0x20, 1, 0, 0, 0, 1, 0, 0]

/-- A block just whole, with deltas 2 and 3. -/
def edgePort (offset : Nat) : State := ported 2 offset [] [0x02, 0x0E]

theorem witness_command_word : (0x02 : Byte).extractLsb' 2 6 = 0 := by decide

theorem witness_decode : decodeOp 0x03 = .ok .uunsort := by decide

/-- A decode command with one byte. -/
def oneByteCommand : Command := { op := 2, offset := 0, vals := [], cbytes := [0] }

/-- A command with a reserved word. -/
def reservedCommand : Command := { op := 4, offset := 0, vals := [], cbytes := [] }

theorem witness_present :
    (presenting 2 2 0 [] [0]).pending = [.present oneByteCommand] ∧
      oneByteCommand.wf (presenting 2 2 0 [] [0]).params .usort = true ∧ decodeOp oneByteCommand.op = .ok .usort :=
  ⟨by decide, by decide, by decide⟩

theorem witness_reserved_word :
    (presenting 2 4 0 [] []).pending = [.present reservedCommand] ∧ 4 ≤ reservedCommand.op.toNat :=
  ⟨by decide, by decide⟩

theorem witness_idle : State.reset.pending = [] := by decide

theorem witness_reset_event : ({ State.reset with pending := [.reset] } : State).pending = .reset :: [] := by decide

theorem witness_breach :
    ({ State.reset with pending := [.breach .secondCommand] } : State).pending = .breach .secondCommand :: [] := by
  decide

theorem witness_operand_too_long :
    let c : Command := { op := 0, offset := 0, vals := words [1, 2], cbytes := [] }
    let d : Command := { op := 2, offset := 0, vals := [], cbytes := bytes [0, 0] }
    let s : State := { State.resetWith { Params.ofN 2 with lw := 1 } with pending := [.present c] }
    let u : State := { s with pending := [.present d] }
    s.pending = .present c :: [] ∧ decodeOp c.op = .ok .csort ∧ 2 ^ s.params.lw ≤ c.vals.length ∧
      u.pending = .present d :: [] ∧ decodeOp d.op = .ok .usort ∧ 2 ^ u.params.lw ≤ d.cbytes.length := by
  decide

theorem witness_well_formed : sortedPort.wf = true ∧ (blockPort 5).wf = true := by decide

theorem witness_width_bound : (32 : Nat) ≤ 32 ∧ (0 : Nat) ≤ 32 := by decide

theorem witness_sufficient_width :
    (BitVec.ofNat 64 (2 ^ 32 - 1)).toNat < 2 ^ 32 ∧ (∀ v ∈ words [1, 3], v.toNat < 2 ^ 2) :=
  ⟨by decide, by simp [words]⟩

theorem witness_writer_room : blen (words [1, 3]).length 32 ≤ (bytes [0, 0, 0, 0, 0, 0, 0, 0, 0]).length := by decide

theorem witness_number :
    (Params.ofN 2).packOrder = .lsbFirstLE ∧ (Params.ofN 2).padBit = false ∧ (∀ v ∈ words [1, 3], v.toNat < 2 ^ 2) :=
  ⟨by decide, by decide, by simp [words]⟩

theorem witness_reader : (bytes [0x0D]).length = plen 2 2 ∧ plen 2 2 ≤ (bytes [0x0D]).length ∧ 1 < 2 := by decide

theorem witness_sorted : SortedFrom 3 (words [3, 9]) ∧ SortedFrom 0xFFFFFFFF (words [0xFFFFFFFF]) := by decide

theorem witness_not_sorted : ¬ SortedFrom 4 (words [3, 9]) ∧ ¬ SortedFrom 3 (words [9, 3]) := by decide

/-- R79's two cases: the scratch block holds a sorted block, or one that is not. -/
theorem witness_dcomp :
    let s := sortedPort.withBlock (words [3, 9])
    s.wf = true ∧ SortedFrom 3 s.enc.block ∧ ¬ SortedFrom 4 s.enc.block := by decide

theorem witness_sums : SumsFit 0xFFFFFFFE (words [1, 0]) ∧ ¬ SumsFit 0xFFFFFFFE (words [1, 1]) := by decide

theorem witness_csort_completes :
    sortedPort.wf = true ∧ len sortedPort = sortedPort.params.n ∧ SortedFrom (seed sortedPort) (vin sortedPort) := by
  decide

theorem witness_csort_errors :
    (ported 2 0 [1] []).wf = true ∧ len (ported 2 0 [1] []) ≠ (ported 2 0 [1] []).params.n ∧
    (ported 2 0 [1, 2, 3] []).wf = true ∧ len (ported 2 0 [1, 2, 3] []) ≠ (ported 2 0 [1, 2, 3] []).params.n ∧
    unsortedPort.wf = true ∧ len unsortedPort = unsortedPort.params.n ∧
      ¬ SortedFrom (seed unsortedPort) (vin unsortedPort) := by decide

theorem witness_cunsort :
    unsortedPort.wf = true ∧ len unsortedPort = unsortedPort.params.n ∧ (ported 2 0 [1] []).wf = true ∧
    (ported 2 0 [] []).wf = true ∧ len (ported 2 0 [] []) = 0 ∧
    len (ported 2 0 [1] []) ≠ 0 ∧ len (ported 2 0 [1] []) ≠ (ported 2 0 [1] []).params.n := by decide

/-- The clauses of the decode commands at the edges of their ranges: width 32 and 33, a block just whole and one byte
short, a sum just fitting and just not. -/
theorem witness_decode_clauses :
    (ported 2 0 [] []).wf = true ∧ overwidePort.wf = true ∧ shortPort.wf = true ∧ (edgePort 0xFFFFFFFB).wf = true ∧
    cin (edgePort 0xFFFFFFFB) = 0x02 :: [0x0E] ∧
    cin (ported 2 0 [] []) = [] ∧ cin overwidePort = 0x21 :: [] ∧ 32 < (0x21 : Byte).toNat ∧
    cin shortPort = 0x20 :: bytes [1, 0, 0, 0, 1, 0, 0] ∧ (0x20 : Byte).toNat ≤ 32 ∧
      clen shortPort < blen shortPort.params.n (0x20 : Byte).toNat ∧
    blen (edgePort 0xFFFFFFFB).params.n (0x02 : Byte).toNat ≤ clen (edgePort 0xFFFFFFFB) ∧
      ¬ SumsFit (seed (edgePort 0xFFFFFFFB)) (decodedFields (edgePort 0xFFFFFFFB) 2) ∧
    (edgePort 0xFFFFFFFA).wf = true ∧ blen (edgePort 0xFFFFFFFA).params.n (0x02 : Byte).toNat ≤ clen (edgePort 0xFFFFFFFA) ∧
      cin (edgePort 0xFFFFFFFA) = 0x02 :: [0x0E] ∧ (0x02 : Byte).toNat ≤ 32 ∧
      SumsFit (seed (edgePort 0xFFFFFFFA)) (decodedFields (edgePort 0xFFFFFFFA) 2) := by decide

/-- A successful compress, on each path. -/
theorem witness_compress_succeeds :
    (∃ t, sortedPort.wf = true ∧ Instr.target .csort = .enc ∧ exec .csort sortedPort = .next t ∧
      t.response = some (.ok 2)) ∧
    (∃ t, unsortedPort.wf = true ∧ Instr.target .cunsort = .enc ∧ exec .cunsort unsortedPort = .next t ∧
      t.response = some (.ok 2)) :=
  ⟨⟨_, by decide, by decide, next_after (by decide), by decide⟩,
    ⟨_, by decide, by decide, next_after (by decide), by decide⟩⟩

/-- A successful sorted decode. -/
theorem witness_decode_succeeds :
    ∃ t, (blockPort 5).wf = true ∧ exec .usort (blockPort 5) = .next t ∧ t.response = some (.ok 2) :=
  ⟨_, by decide, next_after (by decide), by decide⟩

theorem witness_zero_block :
    let s := ported 2 0 [0, 0] []
    s.wf = true ∧ vin s = List.replicate s.params.n 0 ∧ seed s = 0 ∧
      (ported 2 7 [] [0, 9]).wf = true ∧ cin (ported 2 7 [] [0, 9]) = 0 :: [9] := by decide

theorem witness_full_width :
    (ported 2 0 [1, 0x80000000] []).wf = true ∧ 2 ^ 31 ≤ maxOf (encodedValues .cunsort (ported 2 0 [1, 0x80000000] [])) ∧
    (ported 2 0 [1, 0x80000000] []).params.packOrder = .lsbFirstLE ∧ Instr.target .cunsort = .enc ∧
    ∃ t, exec .cunsort (ported 2 0 [1, 0x80000000] []) = .next t ∧ t.response = some (.ok 9) :=
  ⟨by decide, by decide, by decide, by decide, _, next_after (by decide), by decide⟩

/-- The block of `sortedPort`, with a byte after it, in a decoder with the same seed. -/
theorem witness_round_trip :
    ∃ t u, sortedPort.wf = true ∧ u.wf = true ∧ u.params = sortedPort.params ∧ Instr.target .csort = .enc ∧
      exec .csort sortedPort = .next t ∧ t.response = some (.ok 2) ∧ cin u = t.view ++ bytes [0xAA] ∧
      seed u = seed sortedPort :=
  ⟨_, ported 2 3 [] [0x03, 0x30, 0xAA], by decide, by decide, by decide, by decide, next_after (by decide), by decide,
    by decide, by decide⟩

/-- A sorted block, then an unsorted one, in one byte sequence. -/
theorem witness_chaining :
    ∃ t₁ t₂ u₁ u₂, sortedPort.wf = true ∧ Instr.target .csort = .enc ∧ Instr.target .cunsort = .enc ∧
      unsortedPort.wf = true ∧ u₁.wf = true ∧ u₂.wf = true ∧ unsortedPort.params = sortedPort.params ∧
      u₁.params = sortedPort.params ∧ u₂.params = sortedPort.params ∧
      exec .csort sortedPort = .next t₁ ∧ t₁.response = some (.ok 2) ∧
      exec .cunsort unsortedPort = .next t₂ ∧ t₂.response = some (.ok 2) ∧
      cin u₁ = t₁.view ++ t₂.view ∧ cin u₂ = takeTail (cin u₁) (.ok 2) ∧ seed u₁ = seed sortedPort :=
  ⟨_, _, ported 2 3 [] [0x03, 0x30, 0x04, 0x39], ported 2 0 [] [0x04, 0x39], by decide, by decide, by decide, by decide, by decide, by decide, by decide,
    by decide, by decide, next_after (by decide), by decide, next_after (by decide), by decide, by decide, by decide,
    by decide⟩

/-- The two sides of the crossed unsorted block's sum, and a sorted block read with another seed. -/
theorem witness_crossed_paths :
    (∃ t, sortedPort.wf = true ∧ (ported 2 7 [] [0x03, 0x30]).wf = true ∧
      (ported 2 7 [] [0x03, 0x30]).params = sortedPort.params ∧
      exec .csort sortedPort = .next t ∧ t.response = some (.ok 2) ∧ cin (ported 2 7 [] [0x03, 0x30]) = t.view ∧
      ∀ x ∈ vin sortedPort, x.toNat - (seed sortedPort).toNat + (seed (ported 2 7 [] [0x03, 0x30])).toNat < 2 ^ 32) ∧
    (∃ t, unsortedPort.wf = true ∧ (ported 2 0xFFFFFFF3 [] [0x04, 0x39]).wf = true ∧
      (ported 2 0xFFFFFFF4 [] [0x04, 0x39]).wf = true ∧
      exec .cunsort unsortedPort = .next t ∧ t.response = some (.ok 2) ∧
      cin (ported 2 0xFFFFFFF3 [] [0x04, 0x39]) = t.view ∧ cin (ported 2 0xFFFFFFF4 [] [0x04, 0x39]) = t.view ∧
      (seed (ported 2 0xFFFFFFF3 [] [0x04, 0x39])).toNat + ((vin unsortedPort).map BitVec.toNat).sum < 2 ^ 32 ∧
      2 ^ 32 ≤ (seed (ported 2 0xFFFFFFF4 [] [0x04, 0x39])).toNat + ((vin unsortedPort).map BitVec.toNat).sum) :=
  ⟨⟨_, by decide, by decide, by decide, next_after (by decide), by decide, by decide, by simp [vin, seed, sortedPort, ported, words]⟩,
    ⟨_, by decide, by decide, by decide, next_after (by decide), by decide, by decide, by decide, by decide, by decide⟩⟩

/-- A failed command of each part. -/
theorem witness_command_fails :
    (∃ t, unsortedPort.wf = true ∧ exec .csort unsortedPort = .next t ∧
      t.response = some (.err .precedenceViolation)) ∧
    (∃ t, overwidePort.wf = true ∧ exec .uunsort overwidePort = .next t ∧
      t.response = some (.err .invalidBitWidth)) :=
  ⟨⟨_, by decide, next_after (by decide), by decide⟩, ⟨_, by decide, next_after (by decide), by decide⟩⟩

/-- Two states that differ in what earlier commands left, with the same operands. -/
theorem witness_reuse :
    let s := { sortedPort with enc := { block := words [7, 7], out := bytes [2, 5, 1, 1, 1, 1, 1, 1, 1], outLen := 2 } }
    s.wf = true ∧ sortedPort.wf = true ∧ s.params = sortedPort.params ∧ s.port = sortedPort.port ∧
      s.enc ≠ sortedPort.enc := by decide

theorem witness_unused_ports :
    let c : Command := { op := 1, offset := 3, vals := words [3, 9], cbytes := bytes [9] }
    let d : Command := { op := 1, offset := 5, vals := words [9], cbytes := bytes [0x02, 0x0E, 0xAA] }
    c.vals = vin sortedPort ∧ c.offset = seed sortedPort ∧ c ≠ sortedPort.port ∧
      d.cbytes = cin (blockPort 5) ∧ d.offset = seed (blockPort 5) ∧ d ≠ (blockPort 5).port := by decide

/-- The block's own bytes agree, its pad bits and what follows it do not. -/
theorem witness_decoders_read_only_their_fields :
    let s := blockPort 5
    let rest := bytes [0x0E, 0xAA]
    let rest' := bytes [0xFE]
    let c : Command := { op := 2, offset := 5, vals := [], cbytes := 0x02 :: rest' }
    s.wf = true ∧ Instr.target .usort = .dec ∧ cin s = 0x02 :: rest ∧ c.cbytes = 0x02 :: rest' ∧ c.offset = seed s ∧ blen s.params.n 2 ≤ clen s ∧
      plen s.params.n 2 ≤ rest'.length ∧
      ∀ q, q < s.params.n * 2 → streamBit s.params.packOrder rest' q = streamBit s.params.packOrder rest q := by decide

/-- A step and a run from a well-formed state that answer a next state. -/
theorem witness_step :
    (presenting 2 0 3 [3, 9] []).wf = true ∧
    (∃ t, step (presenting 2 0 3 [3, 9] []) = .next t ∧ t.view = bytes [0x03, 0x30]) ∧
    safeFor 3 (presenting 2 0 3 [3, 9] []) = true :=
  ⟨by decide, ⟨_, next_after (by decide), by decide⟩, by decide⟩

end Sys2Proof.Tests
end

/-! The form of the state in the terms proofs use, and the state operations that keep it (R10 to R16, R22). -/

namespace Sys2Proof.Machine

/-! ## The form, part by part -/

theorem Params.wf_iff {p : Params} : p.wf = true ↔ 1 ≤ p.n ∧ p.n ≤ p.decCap := by simp [Params.wf]

theorem Params.ofN_wf {n : Nat} (h : 1 ≤ n) : (Params.ofN n).wf = true :=
  Params.wf_iff.mpr ⟨h, by unfold Params.ofN; dsimp only; omega⟩

theorem Enc.legalView_iff {n : Nat} {e : Enc} :
    e.legalView n = true ↔
      e.outLen = 0 ∨ ∃ b, e.out[0]? = some b ∧ b.toNat ≤ wMax ∧ e.outLen = blen n b.toNat := by
  unfold Enc.legalView
  cases e.out <;> simp

theorem Enc.wf_iff {p : Params} {e : Enc} :
    e.wf p = true ↔ e.block.length = p.n ∧ e.out.length = outCap p.n ∧ e.legalView p.n = true := by
  simp [Enc.wf, Memory.wf, and_assoc]

theorem Dec.wf_iff {p : Params} {d : Dec} :
    d.wf p = true ↔ d.val.length = p.decCap ∧ (d.vlen = 0 ∨ d.vlen = p.n) := by
  simp [Dec.wf]

theorem State.wf_iff {s : State} :
    s.wf = true ↔ s.params.wf = true ∧ s.enc.wf s.params = true ∧ s.dec.wf s.params = true ∧ s.cpc = s.rsps.length := by
  simp [State.wf, and_assoc]

section
variable {s : State}

theorem block_length_of_wf (h : s.wf = true) : s.enc.block.length = s.params.n := by
  obtain ⟨-, he, -, -⟩ := State.wf_iff.mp h
  exact (Enc.wf_iff.mp he).1

theorem out_length_of_wf (h : s.wf = true) : s.enc.out.length = outCap s.params.n := by
  obtain ⟨-, he, -, -⟩ := State.wf_iff.mp h
  obtain ⟨-, hout, -⟩ := Enc.wf_iff.mp he
  exact hout

/-- The decoder's buffer has room for a block (R7, R15). -/
theorem n_le_val_length_of_wf (h : s.wf = true) : s.params.n ≤ s.dec.val.length := by
  obtain ⟨hp, -, hd, -⟩ := State.wf_iff.mp h
  obtain ⟨-, hcap⟩ := Params.wf_iff.mp hp
  obtain ⟨hval, -⟩ := Dec.wf_iff.mp hd
  omega

/-- The view lies inside the output buffer (R14, R81). -/
theorem outLen_le_of_wf (h : s.wf = true) : s.enc.outLen ≤ s.enc.out.length := by
  obtain ⟨-, he, -, -⟩ := State.wf_iff.mp h
  obtain ⟨-, hout, hview⟩ := Enc.wf_iff.mp he
  rcases Enc.legalView_iff.mp hview with h0 | ⟨b, -, hb, hlen⟩
  · omega
  · have := blen_le_outCap (n := s.params.n) hb
    omega

/-- The accessor lies inside the value buffer (R17). -/
theorem vlen_le_of_wf (h : s.wf = true) : s.dec.vlen ≤ s.dec.val.length := by
  have hn := n_le_val_length_of_wf h
  obtain ⟨-, -, hd, -⟩ := State.wf_iff.mp h
  obtain ⟨-, hv⟩ := Dec.wf_iff.mp hd
  omega

/-! ## Operations that keep the form -/

theorem present_wf (c : Command) (rest : List HostEvent) (h : s.wf = true) : (s.present c rest).wf = true := h

theorem respond_wf (r : Response) (h : s.wf = true) : (s.respond r).wf = true := by
  obtain ⟨hp, he, hd, hc⟩ := State.wf_iff.mp h
  exact State.wf_iff.mpr ⟨hp, he, hd, by simp [hc]⟩

theorem withBlock_wf {block : List Word} (h : s.wf = true) (hl : block.length = s.params.n) :
    (s.withBlock block).wf = true := by
  obtain ⟨hp, he, hd, hc⟩ := State.wf_iff.mp h
  obtain ⟨-, hout, hview⟩ := Enc.wf_iff.mp he
  exact State.wf_iff.mpr ⟨hp, Enc.wf_iff.mpr ⟨hl, hout, hview⟩, hd, hc⟩

/-- A block whose width byte is in place, with its length in `ENC.out_len` (R13, R50). -/
theorem withBlockOut_wf {out : Memory} {w : Nat} (h : s.wf = true) (hl : out.length = outCap s.params.n)
    (hw : w ≤ wMax) (hz : out[0]? = some (BitVec.ofNat 8 w)) : (s.withBlockOut out (blen s.params.n w)).wf = true := by
  obtain ⟨hp, he, hd, hc⟩ := State.wf_iff.mp h
  obtain ⟨hblock, -, -⟩ := Enc.wf_iff.mp he
  have hb : (BitVec.ofNat 8 w).toNat = w := by
    unfold wMax at hw
    rw [BitVec.toNat_ofNat]
    omega
  have hview : ({ s.enc with out := out, outLen := blen s.params.n w } : Enc).legalView s.params.n = true :=
    Enc.legalView_iff.mpr (.inr ⟨_, hz, by rw [hb]; exact hw, by rw [hb]⟩)
  exact State.wf_iff.mpr ⟨hp, Enc.wf_iff.mpr ⟨hblock, hl, hview⟩, hd, hc⟩

theorem withValues_wf {val : List Word} (h : s.wf = true) (hl : val.length = s.dec.val.length) :
    (s.withValues val s.params.n).wf = true := by
  obtain ⟨hp, he, hd, hc⟩ := State.wf_iff.mp h
  obtain ⟨hval, -⟩ := Dec.wf_iff.mp hd
  exact State.wf_iff.mpr ⟨hp, he, Dec.wf_iff.mpr ⟨hl.trans hval, .inr rfl⟩, hc⟩

end

end Sys2Proof.Machine

/-! Every command, and so every step, keeps the form: first each command's pseudocode ends in a well-formed
state or with an error it raises, then `finish` turns that into a well-formed next state. -/

namespace Sys2Proof.Machine

/-- A command's pseudocode ended as the spec lets it: with an error it raised, or in a well-formed state. -/
def EndsWell (r : Run (State × Nat)) : Prop :=
  (∃ e, r = .error (.raised e)) ∨ ∃ s' n, r = .ok (s', n) ∧ s'.wf = true

theorem EndsWell.raised (e : ErrorCode) : EndsWell (.error (.raised e)) := .inl ⟨e, rfl⟩

theorem EndsWell.ok {s : State} (h : s.wf = true) (n : Nat) : EndsWell (.ok (s, n)) := .inr ⟨s, n, rfl, h⟩

/-- A command that ends well answers a well-formed next state. -/
theorem finish_wf {s : State} {r : Run (State × Nat)} (t : Target) (h : s.wf = true) (hr : EndsWell r) :
    ∃ u, finish t s r = .next u ∧ u.wf = true := by
  rcases hr with ⟨e, rfl⟩ | ⟨s', n, rfl, h'⟩
  · exact ⟨_, rfl, raise_wf h t e⟩
  · exact ⟨_, rfl, respond_wf (.ok n) h'⟩

section
variable {s : State}

/-! ## The encoder's commands -/

/-- Filling every slot leaves nothing of the old buffer. -/
theorem storeSlots_of_length_eq {slots values : List Word} (h : values.length = slots.length) :
    storeSlots slots values = .ok values := by
  rw [storeSlots_of_le h.le, h, List.drop_length, List.append_nil]

theorem compressAt_endsWell {w : Nat} {d : List Word} (h : s.wf = true) (hw : w ≤ wMax)
    (hd : d.length = s.params.n) : EndsWell (compressAt w d s) := by
  have hroom : blen d.length w ≤ s.enc.out.length := by
    rw [hd, out_length_of_wf h]
    exact blen_le_outCap hw
  obtain ⟨out, hrun, hl, hz⟩ := compressAt_ok hroom
  rw [hrun, hd]
  exact .ok (withBlockOut_wf h (hl.trans (out_length_of_wf h)) hw hz) _

/-- `DCOMP` raises a precedence violation, or goes on to write the deltas that it left in `ENC.block` (R79). -/
theorem dcomp_cases (offset : Word) (h : s.enc.block.length = s.params.n) :
    dcomp offset s = .error (.raised .precedenceViolation) ∨
    ∃ d m, delta offset s.enc.block = .ok (d, m) ∧ d.length = s.params.n ∧
      dcomp offset s = compressAt (bitWidth (m.zeroExtend 64)) d (s.withBlock d) := by
  have htake : s.enc.block.take s.params.n = s.enc.block := List.take_of_length_le h.le
  unfold dcomp
  rw [htake]
  rcases deltaLoop_cases offset 0 s.enc.block with herr | ⟨d, m, hok, hl⟩
  · exact .inl (by rw [delta, herr]; rfl)
  · refine .inr ⟨d, m, hok, hl.trans h, ?_⟩
    rw [delta, hok]
    show (storeSlots s.enc.block d >>= _) = _
    rw [storeSlots_of_length_eq hl]
    rfl

theorem dcomp_endsWell (offset : Word) (h : s.wf = true) : EndsWell (dcomp offset s) := by
  rcases dcomp_cases offset (block_length_of_wf h) with herr | ⟨d, m, -, hl, hrun⟩
  · rw [herr]
    exact .raised _
  · rw [hrun]
    exact compressAt_endsWell (withBlock_wf h hl) (bitWidth_word_le m) hl

/-- With an operand of the right length, `CSORT` is `DCOMP` on the operand in `ENC.block` (R90). -/
theorem csortBody_of_len (h : s.enc.block.length = s.params.n) (hlen : len s = s.params.n) :
    csortBody s = dcomp (seed s) (s.withBlock (vin s)) := by
  unfold csortBody
  rw [if_neg (not_not_intro hlen), storeSlots_of_length_eq (values := vin s) (hlen.trans h.symm)]
  rfl

theorem csortBody_endsWell (h : s.wf = true) : EndsWell (csortBody s) := by
  by_cases hlen : len s = s.params.n
  · rw [csortBody_of_len (block_length_of_wf h) hlen]
    exact dcomp_endsWell _ (withBlock_wf h hlen)
  · rw [csortBody, if_pos hlen]
    exact .raised _

theorem cunsortBody_endsWell (h : s.wf = true) : EndsWell (cunsortBody s) := by
  unfold cunsortBody
  split
  · exact .raised _
  · split
    · exact .raised _
    · next hlen => exact compressAt_endsWell h (bitWidth_word_le _) (not_not.mp hlen)

/-! ## The decoder's commands -/

theorem deliver_endsWell {values : List Word} (w : Nat) (h : s.wf = true) (hl : values.length = s.params.n) :
    EndsWell (deliver w values s) := by
  have hroom : values.length ≤ s.dec.val.length := hl.le.trans (n_le_val_length_of_wf h)
  rw [deliver_ok hroom]
  exact .ok (withValues_wf h (storeSlots_length (storeSlots_of_le hroom))) _

/-- What both decoder commands share: a header error ends the command, and the rest gets `N` fields (R72). -/
theorem readBlock_endsWell {rest : Nat × List Word → Run (State × Nat)}
    (hrest : ∀ w d, d.length = s.params.n → EndsWell (rest (w, d))) : EndsWell (readBlock s >>= rest) := by
  rcases readBlock_cases s with ⟨-, hr⟩ | ⟨-, hr⟩ | ⟨w, d, -, -, -, hl, hr⟩ <;> rw [hr]
  · exact .raised _
  · exact .raised _
  · exact hrest w d hl

theorem usortBody_endsWell (h : s.wf = true) : EndsWell (usortBody s) := by
  refine readBlock_endsWell fun w d hl => ?_
  show EndsWell (runningSums (seed s) d >>= fun values => deliver w values s)
  rcases runningSums_cases (seed s) d with hr | ⟨values, hr, hv⟩ <;> rw [hr]
  · exact .raised _
  · exact deliver_endsWell w h (hv.trans hl)

theorem uunsortBody_endsWell (h : s.wf = true) : EndsWell (uunsortBody s) :=
  readBlock_endsWell fun w _ hl => deliver_endsWell w h hl

/-! ## Commands and steps -/

/-- From a well-formed state every command answers a well-formed next state. -/
theorem exec_wf (i : Instr) (h : s.wf = true) : ∃ t, exec i s = .next t ∧ t.wf = true :=
  match i with
  | .csort => finish_wf .enc h (csortBody_endsWell h)
  | .cunsort => finish_wf .enc h (cunsortBody_endsWell h)
  | .usort => finish_wf .dec h (usortBody_endsWell h)
  | .uunsort => finish_wf .dec h (uunsortBody_endsWell h)

theorem exec_next_wf {i : Instr} {t : State} (h : s.wf = true) (hrun : exec i s = .next t) : t.wf = true := by
  obtain ⟨u, hu, hwf⟩ := exec_wf i h
  cases hu.symm.trans hrun
  exact hwf

end

/-- Settles O45, by the kinds of entry of the host's list. -/
theorem everyStepKeepsTheForm : Obligations.EveryStepKeepsTheForm := by
  intro s t h hstep
  rcases step_next hstep with ⟨-, rfl⟩ | ⟨c, rest, i, -, -, -, hrun⟩ | ⟨c, rest, e, -, -, rfl⟩ | ⟨rest, -, rfl⟩
  case inl => exact h
  case inr.inl => exact exec_next_wf (present_wf c rest h) hrun
  case inr.inr.inl => exact respond_wf _ (present_wf c rest h)
  case inr.inr.inr => exact resetUnit_wf (s := { s with pending := rest }) h

end Sys2Proof.Machine

/-! Replacing the part a command is not addressed to commutes with running the command (R18). -/

namespace Sys2Proof.Machine

/-- The result of a command's pseudocode with its final state changed. -/
def onResult (f : State → State) (r : Run (State × Nat)) : Run (State × Nat) := Prod.map f id <$> r

/-- `onResult` goes past a computation that does not touch the state. -/
theorem onResult_bind {α : Type} (f : State → State) (x : Run α) (k : α → Run (State × Nat)) :
    onResult f (x >>= k) = x >>= fun a => onResult f (k a) := map_bind ..

theorem onResult_ite (f : State → State) (c : Prop) [Decidable c] (r r' : Run (State × Nat)) :
    onResult f (if c then r else r') = if c then onResult f r else onResult f r' := apply_ite ..

/-- A change of the state that commutes with responding and with taking an error commutes with ending a command. -/
theorem finish_onResult {f : State → State} {t : Target} {s : State} (r : Run (State × Nat))
    (hrespond : ∀ s' r, (f s').respond r = f (s'.respond r)) (hraise : ∀ e, (f s).raise t e = f (s.raise t e)) :
    finish t (f s) (onResult f r) = onNext f (finish t s r) :=
  match r with
  | .ok (s', n) => congrArg Host.Outcome.next (hrespond s' (.ok n))
  | .error (.raised e) => congrArg Host.Outcome.next (hraise e)
  | .error (.broken _) => rfl

/-- The state with another decoder. -/
def State.withDec (d : Dec) (s : State) : State := { s with dec := d }

/-- The state with another encoder. -/
def State.withEnc (e : Enc) (s : State) : State := { s with enc := e }

variable (s : State)

/-! ## The encoder's commands, with another decoder -/

section
variable (x : Dec)

theorem compressAt_withDec (w : Nat) (d : List Word) :
    compressAt w d (s.withDec x) = onResult (State.withDec x) (compressAt w d s) := by
  unfold compressAt
  rw [onResult_bind]
  rfl

theorem dcomp_withDec (offset : Word) :
    dcomp offset (s.withDec x) = onResult (State.withDec x) (dcomp offset s) := by
  unfold dcomp
  rw [onResult_bind]
  refine bind_congr fun (d, maxv) => ?_
  rw [onResult_bind]
  exact bind_congr fun block => compressAt_withDec (s.withBlock block) x _ d

theorem csortBody_withDec : csortBody (s.withDec x) = onResult (State.withDec x) (csortBody s) := by
  unfold csortBody
  rw [onResult_ite, onResult_bind]
  exact if_congr Iff.rfl rfl (bind_congr fun block => dcomp_withDec (s.withBlock block) x _)

theorem cunsortBody_withDec : cunsortBody (s.withDec x) = onResult (State.withDec x) (cunsortBody s) := by
  unfold cunsortBody
  rw [onResult_ite, onResult_ite]
  exact if_congr Iff.rfl rfl (if_congr Iff.rfl rfl (compressAt_withDec s x _ _))

theorem finish_enc_withDec (r : Run (State × Nat)) :
    finish .enc (s.withDec x) (onResult (State.withDec x) r) = onNext (State.withDec x) (finish .enc s r) :=
  finish_onResult r (fun _ _ => rfl) fun _ => rfl

theorem exec_withDec {i : Instr} (hi : i.target = .enc) :
    exec i (s.withDec x) = onNext (State.withDec x) (exec i s) := by
  cases i with
  | csort => exact (congrArg _ (csortBody_withDec s x)).trans (finish_enc_withDec s x _)
  | cunsort => exact (congrArg _ (cunsortBody_withDec s x)).trans (finish_enc_withDec s x _)
  | usort => cases hi
  | uunsort => cases hi

end

/-! ## The decoder's commands, with another encoder -/

section
variable (x : Enc)

theorem deliver_withEnc (w : Nat) (values : List Word) :
    deliver w values (s.withEnc x) = onResult (State.withEnc x) (deliver w values s) := by
  unfold deliver
  rw [onResult_bind]
  rfl

theorem usortBody_withEnc : usortBody (s.withEnc x) = onResult (State.withEnc x) (usortBody s) := by
  unfold usortBody
  rw [onResult_bind]
  refine bind_congr fun (w, d) => ?_
  rw [onResult_bind]
  exact bind_congr fun values => deliver_withEnc s x w values

theorem uunsortBody_withEnc : uunsortBody (s.withEnc x) = onResult (State.withEnc x) (uunsortBody s) := by
  unfold uunsortBody
  rw [onResult_bind]
  exact bind_congr fun (w, d) => deliver_withEnc s x w d

theorem finish_dec_withEnc (r : Run (State × Nat)) :
    finish .dec (s.withEnc x) (onResult (State.withEnc x) r) = onNext (State.withEnc x) (finish .dec s r) :=
  finish_onResult r (fun _ _ => rfl) fun _ => rfl

theorem exec_withEnc {i : Instr} (hi : i.target = .dec) :
    exec i (s.withEnc x) = onNext (State.withEnc x) (exec i s) := by
  cases i with
  | csort => cases hi
  | cunsort => cases hi
  | usort => exact (congrArg _ (usortBody_withEnc s x)).trans (finish_dec_withEnc s x _)
  | uunsort => exact (congrArg _ (uunsortBody_withEnc s x)).trans (finish_dec_withEnc s x _)

end

/-- Settles O40: each half is one part's commutation of `exec` with the other part's replacement. -/
theorem encoderAndDecoderShareNoState : Obligations.EncoderAndDecoderShareNoState :=
  ⟨fun _ s d hi => exec_withDec s d hi, fun _ s e hi => exec_withEnc s e hi⟩

end Sys2Proof.Machine

/-! The reset state, and what a host read of the view and of the accessor gives. -/

namespace Sys2Proof.Machine

/-! ## Reset -/

theorem view_of_outLen_zero {s : State} (h : s.enc.outLen = 0) : s.view = [] := by
  rw [State.view, h, List.take_zero]

theorem accessor_of_vlen_zero {s : State} (h : s.dec.vlen = 0) : s.accessor = [] := by
  rw [State.accessor, h, List.take_zero]

/-- Settles O8: both lengths are 0 by `Enc.reset` and `Dec.reset`, which empties the view and the accessor. -/
theorem resetLeavesBothLengthsZero : Obligations.ResetLeavesBothLengthsZero :=
  ⟨rfl, rfl, view_of_outLen_zero rfl, accessor_of_vlen_zero rfl, rfl⟩

/-- Settles O44: the default build is legal, and reset is well formed in every legal build. -/
theorem resetStateIsWellFormed : Obligations.ResetStateIsWellFormed :=
  resetWith_wf (Params.ofN_wf (by omega))

/-! ## Host reads -/

theorem readView_eq (s : State) (j : Nat) : s.readView j = if j < s.enc.outLen then s.enc.out[j]? else none :=
  List.getElem?_take

theorem readValue_eq (s : State) (i : Nat) : s.readValue i = if i < s.dec.vlen then s.dec.val[i]? else none :=
  List.getElem?_take

theorem view_length {s : State} (h : s.wf = true) : s.view.length = s.enc.outLen :=
  List.length_take_of_le (outLen_le_of_wf h)

theorem accessor_length {s : State} (h : s.wf = true) : s.accessor.length = s.dec.vlen :=
  List.length_take_of_le (vlen_le_of_wf h)

/-- Settles O10: a read by the lookup in a `take`, the lengths because the form keeps them inside the buffers. -/
theorem hostReadsOnlyTheViewAndTheAccessor : Obligations.HostReadsOnlyTheViewAndTheAccessor :=
  fun s h => ⟨readView_eq s, view_length h, readValue_eq s, accessor_length h⟩

end Sys2Proof.Machine

/-! What a decode reads of its byte operand (R37, R54): the width byte, and of the payload the `N*w` value bits. Another
command on the port with the same seed, the same width byte and those bits changes nothing but the port. -/

namespace Sys2Proof.Machine

/-! ## Payloads that agree on the value bits -/

/-- The stream index of a field's bit lies before the pad bits (R53, R54). -/
theorem fieldIndex_lt_mul {n w i k : Nat} (hi : i < n) (hk : k < w) : i * w + k < n * w := by
  have h : (i + 1) * w ≤ n * w := Nat.mul_le_mul_right w hi
  rw [Nat.add_mul, Nat.one_mul] at h
  omega

/-- R54: the fields of a payload depend on no pad bit, nor on what follows the payload. -/
theorem unpack_congr {o : PackOrder} {n w : Nat} {bytes bytes' : List Byte} (hl : plen n w ≤ bytes.length)
    (hl' : plen n w ≤ bytes'.length) (hbits : ∀ q, q < n * w → streamBit o bytes' q = streamBit o bytes q) :
    unpack o n w bytes' = unpack o n w bytes := by
  rw [unpack_ok hl, unpack_ok hl']
  refine congrArg Except.ok (List.map_congr_left fun i hi => List.foldl_ext _ _ _ fun r k hk => ?_)
  rw [hbits _ (fieldIndex_lt_mul (List.mem_range.mp hi) (List.mem_range.mp hk))]

theorem streamBit_take {o : PackOrder} {bytes : List Byte} {m q : Nat} (h : q / 8 < m) :
    streamBit o (bytes.take m) q = streamBit o bytes q := by
  rw [streamBit, streamBit, List.getD_eq_getElem?_getD, List.getD_eq_getElem?_getD, List.getElem?_take_of_lt h]

/-- R37: cutting off what follows the payload leaves its fields. -/
theorem unpack_take {o : PackOrder} {n w : Nat} {bytes : List Byte} (h : plen n w ≤ bytes.length) :
    unpack o n w (bytes.take (plen n w)) = unpack o n w bytes :=
  unpack_congr h (List.length_take_of_le h).ge fun q hq => streamBit_take (by unfold plen; omega)

/-! ## Reading a whole block -/

/-- The width byte of a whole block passes the three checks of R72. -/
theorem hdrGet_of_block {n : Nat} {b : Byte} {rest : List Byte} (hb : b.toNat ≤ wMax)
    (hl : plen n b.toNat ≤ rest.length) : hdrGet n (b :: rest) = .ok b.toNat := by
  have hlen : blen n b.toNat ≤ (b :: rest).length := by rw [blen, List.length_cons]; omega
  rcases hdrGet_cases n (b :: rest) with ⟨hnil, -⟩ | ⟨b', rest', heq, hcase⟩
  · cases hnil
  · cases heq
    rcases hcase with ⟨hbig, -⟩ | ⟨-, hshort, -⟩ | ⟨-, -, hok⟩
    · omega
    · omega
    · exact hok

/-- A whole block on the port: its width, and the fields of the bytes after it (R100, R101). -/
theorem readBlock_of_block {s : State} {b : Byte} {rest : List Byte} (hcin : cin s = b :: rest)
    (hb : b.toNat ≤ wMax) (hl : plen s.params.n b.toNat ≤ rest.length) :
    readBlock s = unpack s.params.packOrder s.params.n b.toNat rest >>= fun d => .ok (b.toNat, d) := by
  rw [readBlock, hcin, hdrGet_of_block hb hl, ← unpack_take hl]
  rfl

/-! ## The decoder's commands, with another command on the port -/

/-- The state with another command on the port. -/
def State.withPort (c : Command) (s : State) : State := { s with port := c }

section
variable {s : State} {c : Command}

theorem deliver_withPort (w : Nat) (values : List Word) :
    deliver w values (s.withPort c) = onResult (State.withPort c) (deliver w values s) := by
  unfold deliver
  rw [onResult_bind]
  rfl

theorem usortBody_withPort (hread : readBlock (s.withPort c) = readBlock s) (hseed : c.offset = seed s) :
    usortBody (s.withPort c) = onResult (State.withPort c) (usortBody s) := by
  have hseed' : seed (s.withPort c) = seed s := hseed
  unfold usortBody
  rw [hread, hseed', onResult_bind]
  refine bind_congr fun (w, d) => ?_
  rw [onResult_bind]
  exact bind_congr fun values => deliver_withPort w values

theorem uunsortBody_withPort (hread : readBlock (s.withPort c) = readBlock s) :
    uunsortBody (s.withPort c) = onResult (State.withPort c) (uunsortBody s) := by
  unfold uunsortBody
  rw [hread, onResult_bind]
  exact bind_congr fun (w, d) => deliver_withPort w d

theorem finish_withPort (t : Target) (r : Run (State × Nat)) :
    finish t (s.withPort c) (onResult (State.withPort c) r) = onNext (State.withPort c) (finish t s r) :=
  finish_onResult r (fun _ _ => rfl) fun _ => match t with
    | .enc => rfl
    | .dec => rfl

/-- What a decode takes from the port is the block it reads and, for `USORT`, the seed. -/
theorem exec_withPort_of_dec {i : Instr} (hi : i.target = .dec) (hread : readBlock (s.withPort c) = readBlock s)
    (hseed : c.offset = seed s) : exec i (s.withPort c) = onNext (State.withPort c) (exec i s) := by
  cases i with
  | csort => cases hi
  | cunsort => cases hi
  | usort => exact (congrArg _ (usortBody_withPort hread hseed)).trans (finish_withPort .dec _)
  | uunsort => exact (congrArg _ (uunsortBody_withPort hread)).trans (finish_withPort .dec _)

/-- Two whole blocks of one width that agree on their value bits are read alike (R37, R54). -/
theorem readBlock_withPort {b : Byte} {rest rest' : List Byte} (hcin : cin s = b :: rest) (hb : b.toNat ≤ wMax)
    (hl : plen s.params.n b.toNat ≤ rest.length) (hcin' : c.cbytes = b :: rest')
    (hl' : plen s.params.n b.toNat ≤ rest'.length)
    (hbits : ∀ q, q < s.params.n * b.toNat →
      streamBit s.params.packOrder rest' q = streamBit s.params.packOrder rest q) :
    readBlock (s.withPort c) = readBlock s :=
  calc readBlock (s.withPort c)
    _ = unpack s.params.packOrder s.params.n b.toNat rest' >>= fun d => .ok (b.toNat, d) :=
      readBlock_of_block (s := s.withPort c) hcin' hb hl'
    _ = unpack s.params.packOrder s.params.n b.toNat rest >>= fun d => .ok (b.toNat, d) := by
      rw [unpack_congr hl hl' hbits]
    _ = readBlock s := (readBlock_of_block hcin hb hl).symm

end

/-- Settles O43: both ports show the same block to `readBlock`, and a decode takes nothing else but the seed. -/
theorem decodersReadOnlyTheirFields : Obligations.DecodersReadOnlyTheirFields := by
  intro i s c b rest rest' _ hi hcin hb hclen hcin' hseed hl' hbits
  have hl : plen s.params.n b.toNat ≤ rest.length := by
    have hlen : clen s = rest.length + 1 := congrArg List.length hcin
    rw [blen] at hclen
    omega
  exact exec_withPort_of_dec hi (readBlock_withPort hcin hb hl hcin' hl' hbits) hseed

end Sys2Proof.Machine

/-! The command word: the decoder and the encoder are inverse to each other (R60, R63), and what a step makes of the
word on the port (R118). -/

namespace Sys2Proof.Machine

/-! ## Decoder and encoder -/

theorem opRsv_eq_zero_iff {op : Byte} : opRsv op = 0 ↔ op.toNat < 4 := by
  rw [← BitVec.toNat_inj]
  simp only [opRsv, BitVec.extractLsb'_toNat, BitVec.ofNat_eq_ofNat, BitVec.toNat_ofNat, Nat.shiftRight_eq_div_pow]
  omega

/-- A word without reserved bits is a row of the table of R60. -/
theorem exists_encode_eq {op : Byte} (h : opRsv op = 0) : ∃ i, encode i = op := by
  have hlt : op.toNat < 4 := opRsv_eq_zero_iff.mp h
  obtain h0 | h1 | h2 | h3 : op.toNat = 0 ∨ op.toNat = 1 ∨ op.toNat = 2 ∨ op.toNat = 3 := by omega
  · exact ⟨.csort, BitVec.eq_of_toNat_eq h0.symm⟩
  · exact ⟨.cunsort, BitVec.eq_of_toNat_eq h1.symm⟩
  · exact ⟨.usort, BitVec.eq_of_toNat_eq h2.symm⟩
  · exact ⟨.uunsort, BitVec.eq_of_toNat_eq h3.symm⟩

@[simp] theorem decodeOp_encode (i : Instr) : decodeOp (encode i) = .ok i := by cases i <;> rfl

theorem decodeOp_of_reserved {op : Byte} (h : opRsv op ≠ 0) : decodeOp op = .error (.reservedWord op) := if_pos h

theorem decodeOp_eq_ok_iff {op : Byte} {i : Instr} : decodeOp op = .ok i ↔ op = encode i := by
  constructor
  · intro h
    by_cases hrsv : opRsv op = 0
    · obtain ⟨j, rfl⟩ := exists_encode_eq hrsv
      rw [decodeOp_encode] at h
      cases h
      rfl
    · rw [decodeOp_of_reserved hrsv] at h
      cases h
  · rintro rfl
    exact decodeOp_encode i

/-- Field `DIR` selects the part (R60). -/
theorem target_eq_of_opDir (i : Instr) : i.target = if opDir (encode i) then .dec else .enc := by cases i <;> rfl

/-- Field `MODE` selects the path (R60). -/
theorem opMode_encode_eq_false_iff (i : Instr) : opMode (encode i) = false ↔ i = .csort ∨ i = .usort := by
  cases i <;> decide

/-- Settles O3: the decoder answers `i` for the word of `i` and for no other. -/
theorem decodeAndEncodeAgree : Obligations.DecodeAndEncodeAgree :=
  ⟨decodeOp_encode, fun _ _ => decodeOp_eq_ok_iff.mp⟩

/-- Settles O1: the word is a row of the table, and the table's rows obey `DIR` and `MODE`. -/
theorem commandWordSelectsByDirAndMode : Obligations.CommandWordSelectsByDirAndMode := by
  intro op h
  obtain ⟨i, rfl⟩ := exists_encode_eq h
  exact ⟨i, decodeOp_encode i, rfl, target_eq_of_opDir i, opMode_encode_eq_false_iff i⟩

/-- Settles O2: the four table words are encodings, and the other three have a reserved bit. -/
theorem tableWordsDecodeToTheirCommands : Obligations.TableWordsDecodeToTheirCommands :=
  ⟨decodeOp_encode .csort, decodeOp_encode .cunsort, decodeOp_encode .usort, decodeOp_encode .uunsort,
    decodeOp_of_reserved (by decide), decodeOp_of_reserved (by decide), decodeOp_of_reserved (by decide)⟩

/-! ## A step on a presented command -/

section
variable {s : State} {c : Command} {rest : List HostEvent}

theorem fetch_of_present (hp : s.pending = .present c :: rest) : fetch s = fetchCommand s c rest := by
  rw [fetch, hp]

theorem fetchCommand_of_ok {i : Instr} (hd : decodeOp c.op = .ok i) (hwf : c.wf s.params i = true) :
    fetchCommand s c rest = .run i (s.present c rest) := by
  rw [fetchCommand, hd]
  exact if_pos hwf

theorem fetchCommand_of_error {e : DecodeError} (hd : decodeOp c.op = .error e) :
    fetchCommand s c rest = .settled ((s.present c rest).respond (.err .illegalCommand)) := by
  rw [fetchCommand, hd]

theorem step_of_run {i : Instr} {s' : State} (h : fetch s = .run i s') : step s = exec i s' := by rw [step, h]

theorem step_of_settled {s' : State} (h : fetch s = .settled s') : step s = .next s' := by rw [step, h]

end

/-- Settles O4: fetching answers the decoded command, and the step runs it. -/
theorem stepRunsTheDecodedCommand : Obligations.StepRunsTheDecodedCommand :=
  fun _ _ _ _ hp hd hwf => step_of_run ((fetch_of_present hp).trans (fetchCommand_of_ok hd hwf))

/-- Settles O5: a word of 4 or more has a reserved bit, and fetching it already settles the step. -/
theorem reservedWordAnswersIllegalCommand : Obligations.ReservedWordAnswersIllegalCommand := by
  intro s c rest hp hop
  have hrsv : opRsv c.op ≠ 0 := fun h => absurd (opRsv_eq_zero_iff.mp h) (Nat.not_lt.mpr hop)
  exact step_of_settled ((fetch_of_present hp).trans (fetchCommand_of_error (decodeOp_of_reserved hrsv)))

end Sys2Proof.Machine

/-! A command on a port that differs only where the command does not look (R61). -/

namespace Sys2Proof.Machine

section
variable {s : State} {c : Command}

/-! ## The encoder's commands, with another command on the port -/

theorem compressAt_withPort (w : Nat) (d : List Word) :
    compressAt w d (s.withPort c) = onResult (State.withPort c) (compressAt w d s) := by
  unfold compressAt
  rw [onResult_bind]
  rfl

theorem dcomp_withPort (offset : Word) :
    dcomp offset (s.withPort c) = onResult (State.withPort c) (dcomp offset s) := by
  unfold dcomp
  rw [onResult_bind]
  refine bind_congr fun (d, maxv) => ?_
  rw [onResult_bind]
  exact bind_congr fun block => compressAt_withPort (s := s.withBlock block) _ d

theorem csortBody_withPort (hvals : c.vals = vin s) (hseed : c.offset = seed s) :
    csortBody (s.withPort c) = onResult (State.withPort c) (csortBody s) := by
  have hvin : vin (s.withPort c) = vin s := hvals
  have hlen : len (s.withPort c) = len s := congrArg List.length hvals
  have hseed' : seed (s.withPort c) = seed s := hseed
  unfold csortBody
  rw [hvin, hlen, hseed', onResult_ite, onResult_bind]
  exact if_congr Iff.rfl rfl (bind_congr fun block => dcomp_withPort (s := s.withBlock block) _)

theorem cunsortBody_withPort (hvals : c.vals = vin s) :
    cunsortBody (s.withPort c) = onResult (State.withPort c) (cunsortBody s) := by
  have hvin : vin (s.withPort c) = vin s := hvals
  have hlen : len (s.withPort c) = len s := congrArg List.length hvals
  unfold cunsortBody
  rw [hvin, hlen, onResult_ite, onResult_ite]
  exact if_congr Iff.rfl rfl (if_congr Iff.rfl rfl (compressAt_withPort _ _))

/-- Reading a block takes nothing from the port but the byte operand. -/
theorem readBlock_withPort_of_cbytes (hbytes : c.cbytes = cin s) : readBlock (s.withPort c) = readBlock s := by
  have hcin : cin (s.withPort c) = cin s := hbytes
  unfold readBlock
  rw [hcin]
  rfl

end

/-- Settles O41: each command's pseudocode commutes with the change of the port, and so does its end. -/
theorem unusedPortsHaveNoEffect : Obligations.UnusedPortsHaveNoEffect := fun _ _ =>
  ⟨fun hvals hseed => (congrArg _ (csortBody_withPort hvals hseed)).trans (finish_withPort .enc _),
    fun hvals => (congrArg _ (cunsortBody_withPort hvals)).trans (finish_withPort .enc _),
    fun hbytes hseed => exec_withPort_of_dec (i := .usort) rfl (readBlock_withPort_of_cbytes hbytes) hseed,
    fun hbytes => (congrArg _ (uunsortBody_withPort (readBlock_withPort_of_cbytes hbytes))).trans
      (finish_withPort .dec _)⟩

end Sys2Proof.Machine

/-! What every command leaves of the host's side: the build, the port and the list stay, and one response is added
(R20, R24, R48, R62). -/

namespace Sys2Proof.Machine

/-- Two states with the same build, port, host list, responses and host index. -/
structure SameHostSide (s s' : State) : Prop where
  params : s'.params = s.params
  port : s'.port = s.port
  pending : s'.pending = s.pending
  rsps : s'.rsps = s.rsps
  cpc : s'.cpc = s.cpc

theorem SameHostSide.trans {s s' s'' : State} (h : SameHostSide s s') (h' : SameHostSide s' s'') : SameHostSide s s'' :=
  ⟨h'.params.trans h.params, h'.port.trans h.port, h'.pending.trans h.pending, h'.rsps.trans h.rsps,
    h'.cpc.trans h.cpc⟩

theorem sameHostSide_withBlock (s : State) (block : List Word) : SameHostSide s (s.withBlock block) :=
  ⟨rfl, rfl, rfl, rfl, rfl⟩

theorem sameHostSide_withBlockOut (s : State) (out : Memory) (n : Nat) : SameHostSide s (s.withBlockOut out n) :=
  ⟨rfl, rfl, rfl, rfl, rfl⟩

theorem sameHostSide_withValues (s : State) (val : List Word) (n : Nat) : SameHostSide s (s.withValues val n) :=
  ⟨rfl, rfl, rfl, rfl, rfl⟩

/-- A piece of a command's pseudocode that leaves the host's side as it was in `s`. -/
def KeepsHostSide (s : State) (r : Run (State × Nat)) : Prop := ∀ s' n, r = .ok (s', n) → SameHostSide s s'

namespace KeepsHostSide
variable {s : State}

theorem error (e : Stop) : KeepsHostSide s (.error e) := fun _ _ h => nomatch h

theorem ok {s' : State} (h : SameHostSide s s') (n : Nat) : KeepsHostSide s (.ok (s', n)) := by
  rintro _ _ ⟨⟩
  exact h

theorem bind {α : Type} {x : Run α} {k : α → Run (State × Nat)} (h : ∀ a, KeepsHostSide s (k a)) :
    KeepsHostSide s (x >>= k) :=
  match x with
  | .ok a => h a
  | .error e => error e

theorem ite {p : Prop} [Decidable p] {r r' : Run (State × Nat)} (h : KeepsHostSide s r) (h' : KeepsHostSide s r') :
    KeepsHostSide s (if p then r else r') := by
  split
  · exact h
  · exact h'

/-- Pseudocode that continues from a state with the same host side. -/
theorem of_same {s₀ : State} {r : Run (State × Nat)} (h : SameHostSide s₀ s) (hr : KeepsHostSide s r) :
    KeepsHostSide s₀ r := fun s' n hok => h.trans (hr s' n hok)

end KeepsHostSide

variable (s : State)

theorem compressAt_keepsHostSide (w : Nat) (d : List Word) : KeepsHostSide s (compressAt w d s) :=
  .bind fun _ => .ok (sameHostSide_withBlockOut s _ _) _

theorem dcomp_keepsHostSide (offset : Word) : KeepsHostSide s (dcomp offset s) :=
  .bind fun (d, _) => .bind fun block => .of_same (sameHostSide_withBlock s block) (compressAt_keepsHostSide _ _ d)

theorem deliver_keepsHostSide (w : Nat) (values : List Word) : KeepsHostSide s (deliver w values s) :=
  .bind fun _ => .ok (sameHostSide_withValues s _ _) _

theorem csortBody_keepsHostSide : KeepsHostSide s (csortBody s) :=
  .ite (.error _) (.bind fun block => .of_same (sameHostSide_withBlock s block) (dcomp_keepsHostSide _ _))

theorem cunsortBody_keepsHostSide : KeepsHostSide s (cunsortBody s) :=
  .ite (.error _) (.ite (.error _) (compressAt_keepsHostSide s _ _))

theorem usortBody_keepsHostSide : KeepsHostSide s (usortBody s) :=
  .bind fun (w, _) => .bind fun values => deliver_keepsHostSide s w values

theorem uunsortBody_keepsHostSide : KeepsHostSide s (uunsortBody s) :=
  .bind fun (w, d) => deliver_keepsHostSide s w d

/-- Every command is `finish` on pseudocode that leaves the host's side alone. -/
theorem exec_eq_finish (i : Instr) : ∃ r, exec i s = finish i.target s r ∧ KeepsHostSide s r :=
  match i with
  | .csort => ⟨_, rfl, csortBody_keepsHostSide s⟩
  | .cunsort => ⟨_, rfl, cunsortBody_keepsHostSide s⟩
  | .usort => ⟨_, rfl, usortBody_keepsHostSide s⟩
  | .uunsort => ⟨_, rfl, uunsortBody_keepsHostSide s⟩

theorem SameHostSide.respond {s s' : State} (h : SameHostSide s s') (r : Response) :
    SameHostSide (s.respond r) (s'.respond r) :=
  ⟨h.params, h.port, h.pending, congrArg (· ++ [r]) h.rsps, congrArg (· + 1) h.cpc⟩

/-- On the host's side, taking an error is responding with it. -/
theorem sameHostSide_raise (t : Target) (e : ErrorCode) : SameHostSide (s.respond (.err e)) (s.raise t e) :=
  match t with
  | .enc => ⟨rfl, rfl, rfl, rfl, rfl⟩
  | .dec => ⟨rfl, rfl, rfl, rfl, rfl⟩

/-- On the host's side, a command is one response. -/
theorem sameHostSide_exec {s t : State} {i : Instr} (h : exec i s = .next t) :
    ∃ r, SameHostSide (s.respond r) t := by
  obtain ⟨run, hexec, hkeep⟩ := exec_eq_finish s i
  rw [hexec] at h
  rcases finish_next h with ⟨s', n, hok, rfl⟩ | ⟨e, -, rfl⟩
  · exact ⟨.ok n, (hkeep s' n hok).respond _⟩
  · exact ⟨.err e, sameHostSide_raise s i.target e⟩

/-- Settles O39: the host's side is the old one with one response. -/
theorem everyCommandGivesOneResponse : Obligations.EveryCommandGivesOneResponse := by
  intro i s t h
  obtain ⟨r, hsame⟩ := sameHostSide_exec h
  exact ⟨⟨r, hsame.rsps⟩, hsame.cpc, hsame.port, hsame.params, hsame.pending⟩

end Sys2Proof.Machine

/-! The payload bit by bit, in either bit order (R53, R54, R75), and in the spec's order as one number. -/

namespace Sys2Proof.Machine

/-! ## A byte from eight bits of a stream -/

theorem byteBit_lt (o : PackOrder) (q : Nat) : byteBit o q < 8 := by
  cases o <;> simp only [byteBit] <;> omega

theorem byteBit_mod (o : PackOrder) (q : Nat) : byteBit o (q % 8) = byteBit o q := by
  cases o <;> simp [byteBit]

/-- Within a byte the bit order is its own inverse. -/
theorem byteBit_byteBit (o : PackOrder) {c : Nat} (hc : c < 8) : byteBit o (byteBit o c) = c := by
  cases o <;> simp only [byteBit] <;> omega

theorem byteBit_inj (o : PackOrder) {b c : Nat} (hb : b < 8) (hc : c < 8) (h : byteBit o b = byteBit o c) : b = c := by
  rw [← byteBit_byteBit o hb, h, byteBit_byteBit o hc]

/-- Bytes are equal when they agree at every place of the bit order. -/
theorem byte_ext (o : PackOrder) {x y : Byte}
    (h : ∀ c, c < 8 → x.getLsbD (byteBit o c) = y.getLsbD (byteBit o c)) : x = y := by
  refine BitVec.eq_of_getLsbD_eq fun i hi => ?_
  rw [← byteBit_byteBit o hi]
  exact h _ (byteBit_lt o i)

/-- Assigning bits at distinct places leaves each of them in its place. -/
theorem foldl_setBit_getLsbD {m n k : Nat} {place : Nat → Nat} (f : Nat → Bool) (x : BitVec m)
    (hinj : ∀ a b, a < n → b < n → place a = place b → a = b) (hk : k < n) (hm : place k < m) :
    ((List.range n).foldl (fun r b => setBit r (place b) (f b)) x).getLsbD (place k) = f k := by
  induction n with
  | zero => omega
  | succ n ih =>
    rw [List.range_succ, List.foldl_append, List.foldl_cons, List.foldl_nil, setBit_getLsbD]
    by_cases hkn : k = n
    · subst hkn
      exact if_pos ⟨rfl, hm⟩
    · have hne : place k ≠ place n := fun e => hkn (hinj k n hk (by omega) e)
      rw [if_neg fun h => hne h.1]
      exact ih (fun a b ha hb => hinj a b (by omega) (by omega)) (by omega)

/-- Byte `j` of the stream whose bit number `q` is `f q`. -/
def byteOfStream (o : PackOrder) (f : Nat → Bool) (j : Nat) : Byte :=
  (List.range 8).foldl (fun r b => setBit r (byteBit o b) (f (8 * j + b))) 0

theorem payloadByte_eq_byteOfStream (p : Params) (w : Nat) (d : List Word) (j : Nat) :
    payloadByte p w d j = byteOfStream p.packOrder (payloadBit p w d) j := rfl

theorem byteOfStream_getLsbD (o : PackOrder) (f : Nat → Bool) (j : Nat) {c : Nat} (hc : c < 8) :
    (byteOfStream o f j).getLsbD (byteBit o c) = f (8 * j + c) :=
  foldl_setBit_getLsbD (fun b => f (8 * j + b)) 0 (fun _ _ ha hb => byteBit_inj o ha hb) hc (byteBit_lt o c)

theorem byteOfStream_congr (o : PackOrder) {f g : Nat → Bool} {j : Nat}
    (h : ∀ c, c < 8 → f (8 * j + c) = g (8 * j + c)) : byteOfStream o f j = byteOfStream o g j :=
  byte_ext o fun c hc => by rw [byteOfStream_getLsbD o f j hc, byteOfStream_getLsbD o g j hc, h c hc]

/-! ## The payload's bits -/

theorem pack_length (p : Params) (w : Nat) (d : List Word) : (pack p w d).length = plen d.length w := by simp [pack]

theorem pack_getElem? {p : Params} {w : Nat} {d : List Word} {j : Nat} (h : j < plen d.length w) :
    (pack p w d)[j]? = some (byteOfStream p.packOrder (payloadBit p w d) j) := by
  rw [pack, List.getElem?_map, List.getElem?_range h, Option.map_some, payloadByte_eq_byteOfStream]

/-- R75: what the payload holds, in either order. -/
theorem streamBit_pack {p : Params} {w : Nat} {d : List Word} {q : Nat} (h : q < 8 * plen d.length w) :
    streamBit p.packOrder (pack p w d) q = payloadBit p w d q := by
  have hbyte : q / 8 < plen d.length w := by omega
  rw [streamBit, List.getD_eq_getElem?_getD, pack_getElem? hbyte, Option.getD_some, ← byteBit_mod,
    byteOfStream_getLsbD _ _ _ (Nat.mod_lt q (by omega)), Nat.div_add_mod]

theorem streamBit_of_le {o : PackOrder} {bytes : List Byte} {q : Nat} (h : 8 * bytes.length ≤ q) :
    streamBit o bytes q = false := by
  have hbyte : bytes.length ≤ q / 8 := by omega
  rw [streamBit, List.getD_eq_default _ _ hbyte]
  exact BitVec.getLsbD_zero

/-- The value bits lie inside the payload (R52). -/
theorem mul_le_plen (n w : Nat) : n * w ≤ 8 * plen n w := by unfold plen; omega

/-! ## The payload as one number -/

theorem testBit_add_two_pow_mul {a b w : Nat} (h : a < 2 ^ w) (q : Nat) :
    (a + 2 ^ w * b).testBit q = if q < w then a.testBit q else b.testBit (q - w) := by
  rw [Nat.add_comm]
  exact Nat.testBit_two_pow_mul_add b h q

theorem numberOfBytes_testBit (bytes : List Byte) (q : Nat) :
    (numberOfBytes bytes).testBit q = streamBit .lsbFirstLE bytes q := by
  induction bytes generalizing q with
  | nil => rw [numberOfBytes, Nat.zero_testBit, streamBit_of_le (Nat.zero_le q)]
  | cons b bs ih =>
    rw [numberOfBytes, testBit_add_two_pow_mul b.isLt]
    by_cases hq : q < 8
    · rw [if_pos hq, streamBit, Nat.div_eq_of_lt hq, byteBit, Nat.mod_eq_of_lt hq]
      rfl
    · have hdiv : q / 8 = (q - 8) / 8 + 1 := by omega
      have hmod : q % 8 = (q - 8) % 8 := by omega
      rw [if_neg hq, ih, streamBit, streamBit, byteBit, byteBit, hdiv, hmod, List.getD_cons_succ]

theorem numberOfValues_testBit {w : Nat} (hw : 0 < w) {d : List Word} (hd : ∀ v ∈ d, v.toNat < 2 ^ w) (q : Nat) :
    (numberOfValues w d).testBit q = (d.getD (q / w) 0).getLsbD (q % w) := by
  induction d generalizing q with
  | nil => rw [numberOfValues, Nat.zero_testBit, List.getD_nil]; exact BitVec.getLsbD_zero.symm
  | cons v vs ih =>
    rw [numberOfValues, testBit_add_two_pow_mul (hd v List.mem_cons_self)]
    by_cases hq : q < w
    · rw [if_pos hq, Nat.div_eq_of_lt hq, Nat.mod_eq_of_lt hq]
      rfl
    · have hdiv : q / w = (q - w) / w + 1 := Nat.div_eq_sub_div hw (Nat.not_lt.mp hq)
      have hmod : q % w = (q - w) % w := Nat.mod_eq_sub_mod (Nat.not_lt.mp hq)
      rw [if_neg hq, ih fun u hu => hd u (List.mem_cons_of_mem v hu), hdiv, hmod, List.getD_cons_succ]

/-- Values of width 0 are all 0. -/
theorem numberOfValues_zero {d : List Word} (hd : ∀ v ∈ d, v.toNat < 2 ^ 0) : numberOfValues 0 d = 0 := by
  induction d with
  | nil => rfl
  | cons v vs ih =>
    have hv := hd v List.mem_cons_self
    rw [numberOfValues, ih fun u hu => hd u (List.mem_cons_of_mem v hu)]
    omega

section
variable {p : Params} {w : Nat} {d : List Word}

theorem payloadBit_of_lt {q : Nat} (h : q < d.length * w) :
    payloadBit p w d q = (d.getD (q / w) 0).getLsbD (valueBit p.packOrder w (q % w)) := if_pos h

theorem payloadBit_of_le {q : Nat} (h : d.length * w ≤ q) : payloadBit p w d q = p.padBit :=
  if_neg (Nat.not_lt.mpr h)

/-- R53, R54: in the spec's order with pad bit 0, the stream's bits are the bits of the values' number. -/
theorem numberOfValues_testBit_eq_payloadBit (ho : p.packOrder = .lsbFirstLE) (hpad : p.padBit = false)
    (hd : ∀ v ∈ d, v.toNat < 2 ^ w) (q : Nat) : (numberOfValues w d).testBit q = payloadBit p w d q := by
  rcases Nat.eq_zero_or_pos w with rfl | hw
  · rw [numberOfValues_zero hd, Nat.zero_testBit, payloadBit_of_le (Nat.zero_le q), hpad]
  · rw [numberOfValues_testBit hw hd]
    rcases Nat.lt_or_ge q (d.length * w) with hq | hq
    · rw [payloadBit_of_lt hq, ho, valueBit]
    · have hlen : d.length ≤ q / w := (Nat.le_div_iff_mul_le hw).mpr hq
      rw [payloadBit_of_le hq, hpad, List.getD_eq_default _ _ hlen]
      exact BitVec.getLsbD_zero

/-- With pad bit 0 the payload reads as its bits, and as 0 from its end on. -/
theorem streamBit_pack_of_padBit (hpad : p.padBit = false) (q : Nat) :
    streamBit p.packOrder (pack p w d) q = payloadBit p w d q := by
  rcases Nat.lt_or_ge q (8 * plen d.length w) with hq | hq
  · exact streamBit_pack hq
  · rw [streamBit_of_le (by rwa [pack_length]), payloadBit_of_le ((mul_le_plen d.length w).trans hq), hpad]

end

/-- Settles O16: both numbers have the bits of the stream. -/
theorem payloadIsOneLittleEndianNumber : Obligations.PayloadIsOneLittleEndianNumber := by
  intro p w d ho hpad _ hd
  refine Nat.eq_of_testBit_eq fun q => ?_
  calc (numberOfBytes (pack p w d)).testBit q
    _ = streamBit p.packOrder (pack p w d) q := by rw [ho]; exact numberOfBytes_testBit _ q
    _ = payloadBit p w d q := streamBit_pack_of_padBit hpad q
    _ = (numberOfValues w d).testBit q := (numberOfValues_testBit_eq_payloadBit ho hpad hd q).symm

end Sys2Proof.Machine

/-! The bit-serial writer as a function of the bits it was given (R73, R74): after any bits, its sink and its partial
byte are those of the stream so far, so a block is its width byte and `PACK` (R75). -/

namespace Sys2Proof.Machine

section
variable (p : Params) (hdr : Byte) (old : List Byte) (bits : List Bool)

/-! ## The writer after some bits -/

/-- Bit number `q` of the stream that holds `bits` and then pad bits (R54). -/
def paddedBit (q : Nat) : Bool := bits.getD q p.padBit

/-- The first `n` bytes of that stream. -/
def streamBytes (n : Nat) : List Byte := (List.range n).map (byteOfStream p.packOrder (paddedBit p bits))

/-- The sink once the first `n` bytes of the stream are in it, after the width byte. -/
def sinkAfter (n : Nat) : Memory := hdr :: (streamBytes p bits n ++ old.drop n)

/-- The bit writer after `bits`, in a sink that held `hdr` and then `old` when it was opened. -/
def writerAfter : Writer :=
  { out := sinkAfter p hdr old bits (bits.length / 8), wpos := bits.length,
    cur := byteOfStream p.packOrder (paddedBit p bits) (bits.length / 8) }

theorem streamBytes_length (n : Nat) : (streamBytes p bits n).length = n := by simp [streamBytes]

theorem paddedBit_append_of_ne {q : Nat} (b : Bool) (h : q ≠ bits.length) :
    paddedBit p (bits ++ [b]) q = paddedBit p bits q := by
  unfold paddedBit
  rcases Nat.lt_or_gt_of_ne h with hlt | hgt
  · exact List.getD_append bits [b] _ q hlt
  · rw [List.getD_eq_default _ _ (by simpa using hgt), List.getD_eq_default _ _ hgt.le]

theorem paddedBit_append_self (b : Bool) : paddedBit p (bits ++ [b]) bits.length = b := by simp [paddedBit]

theorem paddedBit_of_le {q : Nat} (h : bits.length ≤ q) : paddedBit p bits q = p.padBit := List.getD_eq_default _ _ h

theorem padByte_getLsbD {c : Nat} (hc : c < 8) : (padByte p).getLsbD c = p.padBit := by
  unfold padByte
  cases p.padBit
  · exact BitVec.getLsbD_zero
  · interval_cases c <;> rfl

/-- A byte past the bits given is all pad bits. -/
theorem byteOfStream_past {j : Nat} (h : bits.length ≤ 8 * j) :
    byteOfStream p.packOrder (paddedBit p bits) j = padByte p :=
  byte_ext p.packOrder fun c hc => by
    rw [byteOfStream_getLsbD _ _ _ hc, padByte_getLsbD p (byteBit_lt _ c), paddedBit_of_le p bits (by omega)]

/-- A byte before the one in progress does not change any more. -/
theorem streamBytes_append (b : Bool) {n : Nat} (h : 8 * n ≤ bits.length) :
    streamBytes p (bits ++ [b]) n = streamBytes p bits n := by
  refine List.map_congr_left fun j hj => byteOfStream_congr _ fun c hc => paddedBit_append_of_ne p bits b ?_
  have hjn : j < n := List.mem_range.mp hj
  omega

/-- The partial byte takes the next bit at its place (R73). -/
theorem setBit_partialByte (b : Bool) :
    setBit (byteOfStream p.packOrder (paddedBit p bits) (bits.length / 8)) (byteBit p.packOrder bits.length) b =
      byteOfStream p.packOrder (paddedBit p (bits ++ [b])) (bits.length / 8) := by
  refine byte_ext p.packOrder fun c hc => ?_
  rw [setBit_getLsbD, byteOfStream_getLsbD _ _ _ hc, byteOfStream_getLsbD _ _ _ hc, ← byteBit_mod _ bits.length]
  by_cases hplace : c = bits.length % 8
  · subst hplace
    rw [if_pos ⟨rfl, byteBit_lt _ _⟩, Nat.div_add_mod, paddedBit_append_self]
  · have hne : byteBit p.packOrder c ≠ byteBit p.packOrder (bits.length % 8) :=
      fun e => hplace (byteBit_inj _ hc (by omega) e)
    rw [if_neg fun h => hne h.1, paddedBit_append_of_ne p bits b (by omega)]

/-- Writing the next byte of the stream where it belongs. -/
theorem sinkAfter_set {n : Nat} (h : n < old.length) :
    (sinkAfter p hdr old bits n).set (n + 1) (byteOfStream p.packOrder (paddedBit p bits) n) =
      sinkAfter p hdr old bits (n + 1) := by
  have hnext : streamBytes p bits (n + 1) =
      streamBytes p bits n ++ [byteOfStream p.packOrder (paddedBit p bits) n] := by
    rw [streamBytes, List.range_succ, List.map_append]
    rfl
  rw [sinkAfter, sinkAfter, hnext, List.set_cons_succ, List.set_append_right _ _ (streamBytes_length p bits n).le,
    streamBytes_length, Nat.sub_self, List.drop_eq_getElem_cons h, List.set_cons_zero, List.append_assoc,
    List.singleton_append]

theorem memWrite_sinkAfter {n : Nat} (h : n < old.length) :
    memWrite (sinkAfter p hdr old bits n) (n + 1) (byteOfStream p.packOrder (paddedBit p bits) n) =
      .ok (sinkAfter p hdr old bits (n + 1)) := by
  have hlt : n + 1 < (sinkAfter p hdr old bits n).length := by
    simp [sinkAfter, streamBytes_length]
    omega
  rw [memWrite_of_lt _ hlt, sinkAfter_set p hdr old bits h]

/-! ## What each operation of the writer does to it -/

theorem bitwOpen_eq_writerAfter : bitwOpen p (hdr :: old) = writerAfter p hdr old [] := by
  rw [writerAfter, byteOfStream_past p [] (Nat.zero_le _)]
  rfl

theorem bitwBit_writerAfter (b : Bool) (h : bits.length / 8 < old.length) :
    bitwBit p (writerAfter p hdr old bits) b = .ok (writerAfter p hdr old (bits ++ [b])) := by
  have hsink : sinkAfter p hdr old bits (bits.length / 8) = sinkAfter p hdr old (bits ++ [b]) (bits.length / 8) := by
    rw [sinkAfter, sinkAfter, streamBytes_append p bits b (by omega)]
  have hlen : (bits ++ [b]).length = bits.length + 1 := List.length_append
  unfold bitwBit writerAfter
  dsimp only
  rw [setBit_partialByte, hsink, hlen]
  split
  · next hfull =>
    have hdiv : (bits.length + 1) / 8 = bits.length / 8 + 1 := by omega
    rw [hdiv, memWrite_sinkAfter p hdr old (bits ++ [b]) h, byteOfStream_past p (bits ++ [b]) (by omega)]
    rfl
  · next hpart =>
    have hdiv : (bits.length + 1) / 8 = bits.length / 8 := by omega
    rw [hdiv]

theorem foldlM_bitwBit_writerAfter (more : List Bool) (h : bits.length + more.length ≤ 8 * old.length) :
    more.foldlM (bitwBit p) (writerAfter p hdr old bits) = .ok (writerAfter p hdr old (bits ++ more)) := by
  induction more generalizing bits with
  | nil => rw [List.append_nil]; rfl
  | cons b more ih =>
    rw [List.length_cons] at h
    rw [List.foldlM_cons, bitwBit_writerAfter p hdr old bits b (by omega)]
    show more.foldlM (bitwBit p) (writerAfter p hdr old (bits ++ [b])) = _
    rw [ih (bits ++ [b]) (by rw [List.length_append, List.length_singleton]; omega), List.append_assoc,
      List.singleton_append]

/-- The bits of some values, one value after another (R53). -/
def valuesBits (o : PackOrder) (w : Nat) (d : List Word) : List Bool := d.flatMap (fieldBits o w)

theorem valuesBits_length (o : PackOrder) (w : Nat) (d : List Word) : (valuesBits o w d).length = d.length * w := by
  simp [valuesBits, List.length_flatMap]

theorem foldlM_bitwWrite_writerAfter (w : Nat) (d : List Word) (h : bits.length + d.length * w ≤ 8 * old.length) :
    d.foldlM (bitwWrite p w) (writerAfter p hdr old bits) =
      .ok (writerAfter p hdr old (bits ++ valuesBits p.packOrder w d)) := by
  induction d generalizing bits with
  | nil => rw [valuesBits, List.flatMap_nil, List.append_nil]; rfl
  | cons v vs ih =>
    rw [List.length_cons, Nat.add_mul, Nat.one_mul] at h
    have hbits : (bits ++ fieldBits p.packOrder w v).length = bits.length + w := by
      rw [List.length_append, fieldBits_length]
    rw [List.foldlM_cons, bitwWrite,
      foldlM_bitwBit_writerAfter p hdr old bits _ (by rw [fieldBits_length]; omega)]
    show vs.foldlM (bitwWrite p w) (writerAfter p hdr old (bits ++ fieldBits p.packOrder w v)) = _
    rw [ih _ (by omega), List.append_assoc]
    rfl

theorem bitwClose_writerAfter (h : bits.length ≤ 8 * old.length) :
    bitwClose (writerAfter p hdr old bits) =
      .ok (sinkAfter p hdr old bits ((bits.length + 7) / 8), (bits.length + 7) / 8) := by
  unfold bitwClose writerAfter
  dsimp only
  split
  · next hpart =>
    have hdiv : (bits.length + 7) / 8 = bits.length / 8 + 1 := by omega
    rw [Nat.add_comm 1, memWrite_sinkAfter p hdr old bits (by omega), hdiv]
    rfl
  · next hfull =>
    have hdiv : (bits.length + 7) / 8 = bits.length / 8 := by omega
    rw [hdiv]

end

/-! ## The block writer is the width byte and `PACK` -/

section
variable (p : Params) (w : Nat)

/-- The stream of the values' bits is the payload's (R53, R54, R75). -/
theorem paddedBit_valuesBits (d : List Word) (q : Nat) :
    paddedBit p (valuesBits p.packOrder w d) q = payloadBit p w d q := by
  induction d generalizing q with
  | nil => exact (paddedBit_of_le p [] (Nat.zero_le q)).trans (payloadBit_of_le (by simp)).symm
  | cons v vs ih =>
    have hcons : valuesBits p.packOrder w (v :: vs) = fieldBits p.packOrder w v ++ valuesBits p.packOrder w vs := rfl
    have hlen : (v :: vs).length * w = vs.length * w + w := by rw [List.length_cons, Nat.add_mul, Nat.one_mul]
    rw [paddedBit, hcons]
    rcases Nat.lt_or_ge q w with hq | hq
    · rw [List.getD_append _ _ _ _ (by rwa [fieldBits_length]), payloadBit_of_lt (by omega), Nat.div_eq_of_lt hq,
        Nat.mod_eq_of_lt hq]
      simp [fieldBits, hq]
    · rw [List.getD_append_right _ _ _ _ (by rwa [fieldBits_length]), fieldBits_length]
      refine (ih (q - w)).trans ?_
      rcases Nat.lt_or_ge q ((v :: vs).length * w) with hin | hpad
      · have hw : 0 < w := by
          rcases Nat.eq_zero_or_pos w with rfl | hw
          · omega
          · exact hw
        rw [payloadBit_of_lt hin, payloadBit_of_lt (by omega), Nat.div_eq_sub_div hw hq, Nat.mod_eq_sub_mod hq,
          List.getD_cons_succ]
      · rw [payloadBit_of_le hpad, payloadBit_of_le (by omega)]

theorem streamBytes_valuesBits (d : List Word) :
    streamBytes p (valuesBits p.packOrder w d) (plen d.length w) = pack p w d := by
  rw [streamBytes, funext (paddedBit_valuesBits p w d)]
  rfl

/-- R75: the bit-serial block writer leaves the width byte and `PACK(d, w)`, and keeps the bytes after them. -/
theorem emitBlock_eq_pack {d : List Word} {out : Memory} (h : blen d.length w ≤ out.length) :
    emitBlock p w d out =
      .ok (BitVec.ofNat 8 w :: (pack p w d ++ out.drop (blen d.length w)), plen d.length w) := by
  cases out with
  | nil => rw [blen, List.length_nil] at h; omega
  | cons b old =>
    have hroom : d.length * w ≤ 8 * old.length := by
      rw [blen, List.length_cons] at h
      exact (mul_le_plen d.length w).trans (by omega)
    have hbits := valuesBits_length p.packOrder w d
    have hput : hdrPut w (b :: old) = .ok (BitVec.ofNat 8 w :: old) := memWrite_of_lt _ (by simp)
    rw [emitBlock, hput]
    show (d.foldlM (bitwWrite p w) (bitwOpen p (BitVec.ofNat 8 w :: old)) >>= bitwClose) = _
    rw [bitwOpen_eq_writerAfter, foldlM_bitwWrite_writerAfter _ _ _ _ _ _ (by rw [List.length_nil]; omega),
      List.nil_append]
    show bitwClose _ = _
    rw [bitwClose_writerAfter _ _ _ _ (by omega), hbits]
    show Except.ok (sinkAfter p _ old _ (plen d.length w), plen d.length w) = _
    rw [sinkAfter, streamBytes_valuesBits, blen, Nat.add_comm 1, List.drop_succ_cons]

end

end Sys2Proof.Machine

/-! The delta transform, the maximum scan and the written width in the words of the statements (R78, R80, R83). -/

namespace Sys2Proof.Machine

/-! ## Predecessors and deltas -/

section
variable (offset v : Word) (vs : List Word)

theorem sortedFrom_cons_iff : SortedFrom offset (v :: vs) ↔ offset.toNat ≤ v.toNat ∧ SortedFrom v vs := by
  constructor
  · intro h
    exact ⟨h 0 (by simp), fun i hi => h (i + 1) (by simpa using hi)⟩
  · rintro ⟨hv, hvs⟩ i hi
    cases i with
    | zero => exact hv
    | succ i => exact hvs i (by simpa using hi)

theorem deltasOf_cons :
    deltasOf offset (v :: vs) = BitVec.ofNat 32 (v.toNat - offset.toNat) :: deltasOf v vs := by
  rw [deltasOf, List.length_cons, List.range_succ_eq_map, List.map_cons, List.map_map]
  rfl

theorem deltasOf_length : (deltasOf offset vs).length = vs.length := by simp [deltasOf]

end

/-- The difference of the pseudocode is the difference of the numbers where nothing is borrowed. -/
theorem sub_eq_ofNat {a b : Word} (h : b.toNat ≤ a.toNat) : a - b = BitVec.ofNat 32 (a.toNat - b.toNat) := by
  refine BitVec.eq_of_toNat_eq ?_
  rw [BitVec.toNat_sub_of_le (BitVec.le_def.mpr h), BitVec.toNat_ofNat, Nat.mod_eq_of_lt (by omega)]

/-! ## Maximum -/

theorem maxOf_cons (v : Word) (vs : List Word) : maxOf (v :: vs) = max v.toNat (maxOf vs) := rfl

theorem maxOf_lt (d : List Word) : maxOf d < 2 ^ 32 := by
  induction d with
  | nil => decide
  | cons v vs ih => exact max_lt v.isLt ih

theorem maxOf_zeros (n : Nat) : maxOf (List.replicate n 0) = 0 := by
  induction n with
  | zero => rfl
  | succ n ih => rw [List.replicate_succ, maxOf_cons, ih]; rfl

theorem maxWord_toNat (a b : Word) : (maxWord a b).toNat = max a.toNat b.toNat := by
  unfold maxWord
  split
  · next h => exact (max_eq_right (BitVec.lt_def.mp h).le).symm
  · next h => exact (max_eq_left (Nat.not_lt.mp (mt BitVec.lt_def.mpr h))).symm

theorem foldl_maxWord_toNat (acc : Word) (values : List Word) :
    (values.foldl maxWord acc).toNat = max acc.toNat (maxOf values) := by
  induction values generalizing acc with
  | nil => exact (Nat.max_zero _).symm
  | cons v vs ih => rw [List.foldl_cons, ih, maxWord_toNat, maxOf_cons, max_assoc]

/-- R83: the scan answers the maximum. -/
theorem maxScan_toNat (values : List Word) : (maxScan values).toNat = maxOf values := by
  rw [maxScan, foldl_maxWord_toNat]
  exact Nat.zero_max _

/-! ## Delta transform -/

theorem deltaLoop_of_sorted {pred : Word} (maxv : Word) {values : List Word} (h : SortedFrom pred values) :
    ∃ m, deltaLoop pred maxv values = .ok (deltasOf pred values, m) ∧
      m.toNat = max maxv.toNat (maxOf (deltasOf pred values)) := by
  induction values generalizing pred maxv with
  | nil => exact ⟨maxv, rfl, (Nat.max_zero _).symm⟩
  | cons v vs ih =>
    obtain ⟨hv, hvs⟩ := (sortedFrom_cons_iff pred v vs).mp h
    obtain ⟨m, hrun, hm⟩ := ih (maxWord maxv (v - pred)) hvs
    have hge : ¬ v < pred := fun hlt => by
      have := BitVec.lt_def.mp hlt
      omega
    refine ⟨m, ?_, ?_⟩
    · rw [deltaLoop, if_neg hge, hrun, deltasOf_cons, ← sub_eq_ofNat hv]
      rfl
    · rw [hm, maxWord_toNat, deltasOf_cons, ← sub_eq_ofNat hv, maxOf_cons, max_assoc]

theorem deltaLoop_of_not_sorted {pred : Word} (maxv : Word) {values : List Word} (h : ¬ SortedFrom pred values) :
    deltaLoop pred maxv values = .error (.raised .precedenceViolation) := by
  induction values generalizing pred maxv with
  | nil => exact absurd (fun i hi => absurd hi (Nat.not_lt_zero i)) h
  | cons v vs ih =>
    rw [deltaLoop]
    split
    · rfl
    · next hge =>
      have hv : pred.toNat ≤ v.toNat := Nat.not_lt.mp (mt BitVec.lt_def.mpr hge)
      rw [ih _ fun hvs => h ((sortedFrom_cons_iff pred v vs).mpr ⟨hv, hvs⟩)]
      rfl

/-- R78: on a sorted block, the deltas and their maximum. -/
theorem delta_of_sorted {offset : Word} {values : List Word} (h : SortedFrom offset values) :
    ∃ m, delta offset values = .ok (deltasOf offset values, m) ∧ m.toNat = maxOf (deltasOf offset values) := by
  obtain ⟨m, hrun, hm⟩ := deltaLoop_of_sorted 0 h
  exact ⟨m, hrun, hm.trans (Nat.zero_max _)⟩

theorem delta_of_not_sorted {offset : Word} {values : List Word} (h : ¬ SortedFrom offset values) :
    delta offset values = .error (.raised .precedenceViolation) := deltaLoop_of_not_sorted 0 h

/-! ## The written width -/

/-- The width of a 32-bit maximum, extended to the estimator's 64 bits, is the written width. -/
theorem bitWidth_eq_widthOf {m : Word} {d : List Word} (h : m.toNat = maxOf d) :
    bitWidth (m.zeroExtend 64) = widthOf d := by
  rw [widthOf, ← h]
  refine congrArg bitWidth (BitVec.eq_of_toNat_eq ?_)
  simp

theorem widthOf_le (d : List Word) : widthOf d ≤ wMax := by
  rw [← bitWidth_eq_widthOf (maxScan_toNat d)]
  exact bitWidth_word_le _

theorem toNat_lt_two_pow_bitWidth (m : BitVec 64) : m.toNat < 2 ^ bitWidth m := by
  obtain ⟨hlt, -, -, -⟩ := bitWidthLoop_spec m.toNat 64 0 (by have := m.isLt; omega)
  exact hlt

theorem maxOf_lt_two_pow_widthOf (d : List Word) : maxOf d < 2 ^ widthOf d := by
  have hlt := toNat_lt_two_pow_bitWidth (BitVec.ofNat 64 (maxOf d))
  have hmax := maxOf_lt d
  rwa [BitVec.toNat_ofNat, Nat.mod_eq_of_lt (by omega)] at hlt

/-- R56: values that need 32 bits are written at width 32. -/
theorem widthOf_of_full {d : List Word} (h : 2 ^ 31 ≤ maxOf d) : widthOf d = 32 := by
  have hlt := maxOf_lt_two_pow_widthOf d
  have hle : widthOf d ≤ 32 := widthOf_le d
  have hgt : 31 < widthOf d := (Nat.pow_lt_pow_iff_right (by omega : 1 < 2)).mp (h.trans_lt hlt)
  omega

theorem widthOf_zeros (n : Nat) : widthOf (List.replicate n 0) = 0 := by
  rw [widthOf, maxOf_zeros]
  rfl

end Sys2Proof.Machine

/-! What a successful compress leaves (R79, R90, R91): the block of its encoded values, in `ENC.out` from index 0 and
as the view; and the two extreme blocks, of width 0 (R55) and of width 32 (R56). -/

namespace Sys2Proof.Machine

/-! ## The two encoder commands -/

/-- The state once the block of the encoded values `d` is in `ENC.out` (R50); the bytes after it are kept. -/
def State.withBlockOf (s : State) (d : List Word) : State :=
  s.withBlockOut (blockOf s.params d ++ s.enc.out.drop (blockOf s.params d).length) (blockOf s.params d).length

theorem blockOf_length (p : Params) (d : List Word) : (blockOf p d).length = blen d.length (widthOf d) := by
  rw [blockOf, List.length_cons, pack_length, blen, Nat.add_comm]

theorem view_withBlockOf (s : State) (d : List Word) : (s.withBlockOf d).view = blockOf s.params d :=
  List.take_left

@[simp] theorem response_respond (s : State) (r : Response) : (s.respond r).response = some r := by
  simp [State.response]

theorem response_raise (s : State) (t : Target) (e : ErrorCode) : (s.raise t e).response = some (.err e) := by
  cases t <;> exact response_respond _ _

section
variable {s : State}

/-- R79, R91: at the written width, compressing in a buffer of its full size leaves the block. -/
theorem compressAt_widthOf {d : List Word} (hout : s.enc.out.length = outCap s.params.n)
    (hd : d.length = s.params.n) :
    compressAt (widthOf d) d s = .ok (s.withBlockOf d, (blockOf s.params d).length) := by
  have hroom : blen d.length (widthOf d) ≤ s.enc.out.length := by
    rw [hout, hd]
    exact blen_le_outCap (widthOf_le d)
  rw [compressAt, emitBlock_eq_pack _ _ hroom, State.withBlockOf, blockOf_length]
  rfl

/-- `DCOMP` on a sorted block (R79). -/
theorem dcomp_of_sorted {offset : Word} (hblock : s.enc.block.length = s.params.n)
    (hout : s.enc.out.length = outCap s.params.n) (hsorted : SortedFrom offset s.enc.block) :
    dcomp offset s =
      .ok ((s.withBlock (deltasOf offset s.enc.block)).withBlockOf (deltasOf offset s.enc.block),
        (blockOf s.params (deltasOf offset s.enc.block)).length) := by
  obtain ⟨m, hdelta, hm⟩ := delta_of_sorted hsorted
  have hlen := deltasOf_length offset s.enc.block
  unfold dcomp
  rw [List.take_of_length_le hblock.le, hdelta]
  show (storeSlots s.enc.block (deltasOf offset s.enc.block) >>= _) = _
  rw [storeSlots_of_length_eq hlen]
  show compressAt (bitWidth (m.zeroExtend 64)) _ _ = _
  rw [bitWidth_eq_widthOf hm]
  exact compressAt_widthOf hout (hlen.trans hblock)

theorem dcomp_of_not_sorted {offset : Word} (hblock : s.enc.block.length = s.params.n)
    (hsorted : ¬ SortedFrom offset s.enc.block) : dcomp offset s = .error (.raised .precedenceViolation) := by
  unfold dcomp
  rw [List.take_of_length_le hblock.le, delta_of_not_sorted hsorted]
  rfl

/-- `CSORT` on a sorted block of `N` values (R90). -/
theorem exec_csort_of_sorted (h : s.wf = true) (hlen : len s = s.params.n) (hsorted : SortedFrom (seed s) (vin s)) :
    exec .csort s =
      .next (((s.withBlock (deltasOf (seed s) (vin s))).withBlockOf (deltasOf (seed s) (vin s))).respond
        (.ok (blockOf s.params (deltasOf (seed s) (vin s))).length)) := by
  have hbody : csortBody s = .ok ((s.withBlock (deltasOf (seed s) (vin s))).withBlockOf (deltasOf (seed s) (vin s)),
      (blockOf s.params (deltasOf (seed s) (vin s))).length) :=
    (csortBody_of_len (block_length_of_wf h) hlen).trans
      (dcomp_of_sorted (s := s.withBlock (vin s)) hlen (out_length_of_wf (withBlock_wf h hlen)) hsorted)
  exact congrArg (finish .enc s) hbody

theorem exec_csort_of_len_ne (hlen : len s ≠ s.params.n) : exec .csort s = .next (s.raise .enc .lengthMismatch) :=
  congrArg (finish .enc s) (if_pos hlen)

theorem exec_csort_of_not_sorted (h : s.wf = true) (hlen : len s = s.params.n)
    (hsorted : ¬ SortedFrom (seed s) (vin s)) : exec .csort s = .next (s.raise .enc .precedenceViolation) := by
  have hbody : csortBody s = .error (.raised .precedenceViolation) :=
    (csortBody_of_len (block_length_of_wf h) hlen).trans
      (dcomp_of_not_sorted (s := s.withBlock (vin s)) hlen hsorted)
  exact congrArg (finish .enc s) hbody

/-- `CUNSORT` on a block of `N` values (R91). -/
theorem exec_cunsort_of_len (h : s.wf = true) (hlen : len s = s.params.n) :
    exec .cunsort s = .next ((s.withBlockOf (vin s)).respond (.ok (blockOf s.params (vin s)).length)) := by
  obtain ⟨hp, -, -, -⟩ := State.wf_iff.mp h
  obtain ⟨hn, -⟩ := Params.wf_iff.mp hp
  have hbody : cunsortBody s = .ok (s.withBlockOf (vin s), (blockOf s.params (vin s)).length) := by
    rw [cunsortBody, if_neg (by omega), if_neg (not_not_intro hlen), bitWidth_eq_widthOf (maxScan_toNat _)]
    exact compressAt_widthOf (out_length_of_wf h) hlen
  exact congrArg (finish .enc s) hbody

theorem exec_cunsort_of_len_ne (hlen : len s ≠ s.params.n) :
    ∃ e, exec .cunsort s = .next (s.raise .enc e) := by
  by_cases h0 : len s = 0
  · exact ⟨_, congrArg (finish .enc s) (if_pos h0)⟩
  · exact ⟨_, congrArg (finish .enc s) ((if_neg h0).trans (if_pos hlen))⟩

/-- What stands in `ENC` once the block of the encoded values `d` has been written over the old output buffer. -/
structure HoldsBlock (s t : State) (d : List Word) : Prop where
  length : d.length = s.params.n
  out : t.enc.out = blockOf s.params d ++ s.enc.out.drop (blockOf s.params d).length
  view : t.view = blockOf s.params d

/-- Every encoder command raises an error, or leaves the block of its encoded values and reports its length. -/
theorem exec_enc_cases {i : Instr} (h : s.wf = true) (hi : i.target = .enc) :
    (∃ e, exec i s = .next (s.raise .enc e)) ∨
    ∃ t, exec i s = .next t ∧ t.response = some (.ok (blockOf s.params (encodedValues i s)).length) ∧
      HoldsBlock s t (encodedValues i s) := by
  by_cases hlen : len s = s.params.n
  · cases i with
    | csort =>
      by_cases hsorted : SortedFrom (seed s) (vin s)
      · exact .inr ⟨_, exec_csort_of_sorted h hlen hsorted, response_respond _ _,
          (deltasOf_length _ _).trans hlen, rfl, view_withBlockOf _ _⟩
      · exact .inl ⟨_, exec_csort_of_not_sorted h hlen hsorted⟩
    | cunsort =>
      exact .inr ⟨_, exec_cunsort_of_len h hlen, response_respond _ _, hlen, rfl, view_withBlockOf _ _⟩
    | usort => cases hi
    | uunsort => cases hi
  · cases i with
    | csort => exact .inl ⟨_, exec_csort_of_len_ne hlen⟩
    | cunsort => exact .inl (exec_cunsort_of_len_ne hlen)
    | usort => cases hi
    | uunsort => cases hi

/-- An `OK` of an encoder command reports the block that it left. -/
theorem exec_enc_ok {t : State} {i : Instr} {n : Nat} (h : s.wf = true) (hi : i.target = .enc)
    (hrun : exec i s = .next t) (hok : t.response = some (.ok n)) :
    n = (blockOf s.params (encodedValues i s)).length ∧ HoldsBlock s t (encodedValues i s) := by
  rcases exec_enc_cases h hi with ⟨e, herr⟩ | ⟨u, hu, hresp, hblock⟩
  · cases herr.symm.trans hrun
    rw [response_raise] at hok
    cases hok
  · cases hu.symm.trans hrun
    cases hresp.symm.trans hok
    exact ⟨rfl, hblock⟩

end

/-! ## The block of width 32 -/

section
variable {p : Params} {d : List Word}

/-- R53: in the spec's order a field of width 32 is four bytes, least significant first. -/
theorem pack_full_getElem? (ho : p.packOrder = .lsbFirstLE) {k j : Nat} (hk : k < d.length) (hj : j < 4) :
    (pack p 32 d)[4 * k + j]? = some ((d.getD k 0).extractLsb' (8 * j) 8) := by
  rw [pack_getElem? (by unfold plen; omega)]
  refine congrArg some (byte_ext p.packOrder fun c hc => ?_)
  have hdiv : (8 * (4 * k + j) + c) / 32 = k := by omega
  have hmod : (8 * (4 * k + j) + c) % 32 = 8 * j + c := by omega
  have hbit : byteBit .lsbFirstLE c = c := Nat.mod_eq_of_lt hc
  rw [byteOfStream_getLsbD _ _ _ hc, payloadBit_of_lt (by omega), ho, hdiv, hmod, hbit, valueBit,
    BitVec.getLsbD_extractLsb', decide_eq_true hc, Bool.true_and]

theorem blockOf_of_full (h : 2 ^ 31 ≤ maxOf d) : blockOf p d = 0x20 :: pack p 32 d := by
  rw [blockOf, widthOf_of_full h]
  rfl

theorem blockOf_length_of_full (h : 2 ^ 31 ≤ maxOf d) : (blockOf p d).length = 1 + 4 * d.length := by
  rw [blockOf_length, widthOf_of_full h, blen, plen]
  omega

end

/-- Settles O30: the block of width 32 is as long as the buffer, and its payload is the values' bytes. -/
theorem fullWidthBlockFillsTheBuffer : Obligations.FullWidthBlockFillsTheBuffer := by
  intro i s t n h hi hrun hok hfull
  obtain ⟨rfl, hlen, hout, hview⟩ := exec_enc_ok h hi hrun hok
  have hblen : (blockOf s.params (encodedValues i s)).length = 1 + 4 * s.params.n := by
    rw [blockOf_length_of_full hfull, hlen]
  have hcap : s.enc.out.length ≤ (blockOf s.params (encodedValues i s)).length := by
    rw [out_length_of_wf h, hblen, outCap, Nat.add_comm]
  refine ⟨hblen, ?_, ?_, fun ho k j hk hj => ?_⟩
  · rw [hview, hout, List.drop_eq_nil_of_le hcap, List.append_nil]
  · rw [hview, blockOf_of_full hfull]
    rfl
  · have hidx : 1 + 4 * k + j = 4 * k + j + 1 := by omega
    rw [hview, blockOf_of_full hfull, hidx, List.getElem?_cons_succ, pack_full_getElem? ho (by omega) hj]

/-! ## The block of width 0 -/

theorem plen_zero (n : Nat) : plen n 0 = 0 := by rw [plen, Nat.mul_zero]

theorem blen_zero (n : Nat) : blen n 0 = 1 := by rw [blen, plen_zero]

theorem blockOf_zeros (p : Params) (n : Nat) : blockOf p (List.replicate n 0) = [0] := by
  rw [blockOf, widthOf_zeros, pack, plen_zero]
  rfl

theorem predecessor_zeros (n i : Nat) : predecessor 0 (List.replicate n 0) i = 0 := by
  rw [predecessor, ← List.replicate_succ]
  simp

theorem sortedFrom_zeros (n : Nat) : SortedFrom 0 (List.replicate n 0) := by
  intro i _
  rw [predecessor_zeros]
  exact Nat.zero_le _

theorem deltasOf_zeros (n : Nat) : deltasOf 0 (List.replicate n 0) = List.replicate n 0 := by
  induction n with
  | zero => rfl
  | succ n ih => rw [List.replicate_succ, deltasOf_cons, ih]; rfl

section
variable {s : State}

theorem exec_csort_of_zeros (h : s.wf = true) (hvin : vin s = List.replicate s.params.n 0) (hseed : seed s = 0) :
    ∃ t, exec .csort s = .next t ∧ t.response = some (.ok 1) ∧ t.view = [0] := by
  have hlen : len s = s.params.n := (congrArg List.length hvin).trans List.length_replicate
  have hsorted : SortedFrom (seed s) (vin s) := by
    rw [hseed, hvin]
    exact sortedFrom_zeros _
  have hblock : blockOf s.params (deltasOf (seed s) (vin s)) = [0] := by
    rw [hseed, hvin, deltasOf_zeros, blockOf_zeros]
  refine ⟨_, exec_csort_of_sorted h hlen hsorted, ?_, (view_withBlockOf _ _).trans hblock⟩
  rw [response_respond, hblock]
  rfl

theorem exec_cunsort_of_zeros (h : s.wf = true) (hvin : vin s = List.replicate s.params.n 0) :
    ∃ t, exec .cunsort s = .next t ∧ t.response = some (.ok 1) ∧ t.view = [0] := by
  have hlen : len s = s.params.n := (congrArg List.length hvin).trans List.length_replicate
  have hblock : blockOf s.params (vin s) = [0] := by rw [hvin, blockOf_zeros]
  refine ⟨_, exec_cunsort_of_len h hlen, ?_, (view_withBlockOf _ _).trans hblock⟩
  rw [response_respond, hblock]
  rfl

/-- A field of no bits is 0, whatever the payload (R55). -/
theorem unpack_width_zero (o : PackOrder) (n : Nat) (bytes : List Byte) :
    unpack o n 0 bytes = .ok (List.replicate n 0) := by
  rw [unpack_ok (by rw [plen_zero]; exact Nat.zero_le _)]
  simp

theorem readBlock_of_zero {rest : List Byte} (hcin : cin s = 0 :: rest) :
    readBlock s = .ok (0, List.replicate s.params.n 0) := by
  have hplen : plen s.params.n (0 : Byte).toNat ≤ rest.length := (plen_zero s.params.n).trans_le (Nat.zero_le _)
  rw [readBlock_of_block hcin (Nat.zero_le _) hplen]
  show (unpack _ _ 0 rest >>= _) = _
  rw [unpack_width_zero]
  rfl

theorem runningSums_zeros (acc : Word) (n : Nat) :
    runningSums acc (List.replicate n 0) = .ok (List.replicate n acc) := by
  have haccum : accum acc 0 = .ok acc := by
    have hlt : ¬ 2 ^ 32 ≤ acc.toNat + (0 : Word).toNat := Nat.not_le.mpr acc.isLt
    rw [accum, if_neg hlt]
    exact congrArg _ (BitVec.ofNat_toNat 32 acc |>.trans (BitVec.setWidth_eq acc))
  induction n with
  | zero => rfl
  | succ n ih =>
    rw [List.replicate_succ, runningSums, haccum]
    show (runningSums acc (List.replicate n 0) >>= _) = _
    rw [ih]
    rfl

/-- A decode that ends by delivering `N` values answers `OK` with the block's length, and they are the accessor. -/
theorem finish_deliver {values : List Word} (h : s.wf = true) (w : Nat) (hl : values.length = s.params.n) :
    ∃ v, finish .dec s (deliver w values s) = .next v ∧ v.response = some (.ok (blen s.params.n w)) ∧
      v.accessor = values := by
  rw [deliver_ok (hl.le.trans (n_le_val_length_of_wf h))]
  exact ⟨_, rfl, response_respond _ _, List.take_left' hl⟩

theorem exec_usort_of_zero {rest : List Byte} (h : s.wf = true) (hcin : cin s = 0 :: rest) :
    ∃ v, exec .usort s = .next v ∧ v.response = some (.ok 1) ∧
      v.accessor = List.replicate s.params.n (seed s) := by
  have hbody : usortBody s = deliver 0 (List.replicate s.params.n (seed s)) s := by
    rw [usortBody, readBlock_of_zero hcin]
    show (runningSums (seed s) (List.replicate s.params.n 0) >>= _) = _
    rw [runningSums_zeros]
    rfl
  show ∃ v, finish .dec s (usortBody s) = .next v ∧ _
  rw [hbody, ← blen_zero s.params.n]
  exact finish_deliver h 0 List.length_replicate

theorem exec_uunsort_of_zero {rest : List Byte} (h : s.wf = true) (hcin : cin s = 0 :: rest) :
    ∃ v, exec .uunsort s = .next v ∧ v.response = some (.ok 1) ∧
      v.accessor = List.replicate s.params.n 0 := by
  have hbody : uunsortBody s = deliver 0 (List.replicate s.params.n 0) s := by
    rw [uunsortBody, readBlock_of_zero hcin]
    rfl
  show ∃ v, finish .dec s (uunsortBody s) = .next v ∧ _
  rw [hbody, ← blen_zero s.params.n]
  exact finish_deliver h 0 List.length_replicate

end

/-- Settles O29: zeros have width 0, and width 0 has an empty payload whose fields are 0. -/
theorem zeroBlockIsOneByte : Obligations.ZeroBlockIsOneByte :=
  ⟨fun _ h hvin hseed => exec_csort_of_zeros h hvin hseed, fun _ h hvin => exec_cunsort_of_zeros h hvin,
    fun _ _ h hcin => ⟨exec_usort_of_zero h hcin, exec_uunsort_of_zero h hcin⟩⟩

end Sys2Proof.Machine

/-! The fields of a payload as the words of the statements give them (R76), and the two ways round between the writer
and the reader (R75, R77). -/

namespace Sys2Proof.Machine

/-! ## Places of a field -/

section
variable (o : PackOrder) {w : Nat}

theorem valueBit_lt {k : Nat} (hk : k < w) : valueBit o w k < w := by
  cases o with
  | lsbFirstLE => exact hk
  | msbFirst => rw [valueBit]; omega

/-- Within a field the bit order is its own inverse. -/
theorem valueBit_valueBit {k : Nat} (hk : k < w) : valueBit o w (valueBit o w k) = k := by
  cases o with
  | lsbFirstLE => rfl
  | msbFirst => rw [valueBit, valueBit]; omega

theorem valueBit_inj {j k : Nat} (hj : j < w) (hk : k < w) (h : valueBit o w j = valueBit o w k) : j = k := by
  rw [← valueBit_valueBit o hj, h, valueBit_valueBit o hk]

end

/-! ## A word from its bits -/

theorem wordOfBits_getLsbD (f : Nat → Bool) {b : Nat} (hb : b < 32) : (wordOfBits f).getLsbD b = f b :=
  foldl_setBit_getLsbD (place := id) f 0 (fun _ _ _ _ h => h) hb hb

/-- Assigning bits at some places leaves every other place alone. -/
theorem foldl_setBit_getLsbD_of_ne {m n j : Nat} {place : Nat → Nat} (f : Nat → Bool) (x : BitVec m)
    (h : ∀ k, k < n → j ≠ place k) :
    ((List.range n).foldl (fun r k => setBit r (place k) (f k)) x).getLsbD j = x.getLsbD j := by
  induction n with
  | zero => rfl
  | succ n ih =>
    rw [List.range_succ, List.foldl_append, List.foldl_cons, List.foldl_nil, setBit_getLsbD,
      if_neg fun hj => h n (by omega) hj.1]
    exact ih fun k hk => h k (by omega)

section
variable {o : PackOrder} {n w i : Nat} {bytes : List Byte}

theorem fieldBit_of_lt {b : Nat} (hb : b < w) :
    fieldBit o w bytes i b = streamBit o bytes (i * w + valueBit o w b) := by
  rw [fieldBit, decide_eq_true hb, Bool.true_and]

theorem fieldBit_of_le {b : Nat} (hb : w ≤ b) : fieldBit o w bytes i b = false := by
  rw [fieldBit, decide_eq_false (Nat.not_lt.mpr hb), Bool.false_and]

theorem fieldBit_valueBit {k : Nat} (hk : k < w) :
    fieldBit o w bytes i (valueBit o w k) = streamBit o bytes (i * w + k) := by
  rw [fieldBit_of_lt (valueBit_lt o hk), valueBit_valueBit o hk]

/-- The reader's loop, from 0, assembles the field. -/
theorem foldl_setBit_eq_field :
    (List.range w).foldl (fun r k => setBit r (valueBit o w k) (streamBit o bytes (i * w + k))) (0 : Word) =
      wordOfBits (fieldBit o w bytes i) := by
  refine BitVec.eq_of_getLsbD_eq fun b hb => ?_
  rw [wordOfBits_getLsbD _ hb]
  rcases Nat.lt_or_ge b w with hin | hout
  · rw [fieldBit_of_lt hin]
    have hset := foldl_setBit_getLsbD (fun k => streamBit o bytes (i * w + k)) (0 : Word)
      (fun _ _ => valueBit_inj o) (valueBit_lt o hin) ((valueBit_valueBit o hin).trans_lt hb)
    rwa [valueBit_valueBit o hin] at hset
  · rw [fieldBit_of_le hout]
    have hkeep := foldl_setBit_getLsbD_of_ne (fun k => streamBit o bytes (i * w + k)) (0 : Word) (n := w) (j := b)
      (place := valueBit o w) fun k hk => (hout.trans_lt' (valueBit_lt o hk)).ne'
    exact hkeep.trans BitVec.getLsbD_zero

/-! ## What the reader answers -/

/-- R76: the reader answers the field. -/
theorem bitrGet_eq_field (hl : plen n w ≤ bytes.length) (hi : i < n) :
    bitrGet o bytes w i = .ok (wordOfBits (fieldBit o w bytes i)) := by
  rw [bitrGet_ok hl hi, foldl_setBit_eq_field]

/-- R100, R101: a payload that is wholly there is read as its fields. -/
theorem unpack_eq_fieldsOf (hl : plen n w ≤ bytes.length) :
    unpack o n w bytes = .ok (fieldsOf o n w bytes) :=
  mapM_ok _ fun _ hi => bitrGet_eq_field hl (List.mem_range.mp hi)

theorem toNat_lt_two_pow_iff {v : Word} : v.toNat < 2 ^ w ↔ ∀ b, w ≤ b → v.getLsbD b = false :=
  ⟨fun h b hb => Nat.testBit_lt_two_pow (h.trans_le (Nat.pow_le_pow_right (by omega) hb)),
    fun h => Nat.lt_pow_two_of_testBit _ h⟩

theorem field_lt_two_pow : (wordOfBits (fieldBit o w bytes i)).toNat < 2 ^ w := by
  refine toNat_lt_two_pow_iff.mpr fun b hb => ?_
  rcases Nat.lt_or_ge b 32 with hin | hout
  · rw [wordOfBits_getLsbD _ hin, fieldBit_of_le hb]
  · exact BitVec.getLsbD_of_ge _ _ hout

theorem field_getLsbD_valueBit (hw : w ≤ 32) {k : Nat} (hk : k < w) :
    (wordOfBits (fieldBit o w bytes i)).getLsbD (valueBit o w k) = streamBit o bytes (i * w + k) := by
  rw [wordOfBits_getLsbD _ ((valueBit_lt o hk).trans_le hw), fieldBit_valueBit hk]

end

/-- Settles O18: the answer is the field, whose bits are the stream's. -/
theorem bitReaderAnswersTheField : Obligations.BitReaderAnswersTheField := fun _ _ _ _ _ hw hl hi =>
  ⟨_, bitrGet_eq_field hl hi, field_lt_two_pow, fun _ hk => field_getLsbD_valueBit hw hk⟩

/-! ## Writer and reader -/

section
variable {p : Params} {w : Nat}

/-- Place `k` of field `i` of the payload of `d` is that place of value `i` (R75). -/
theorem streamBit_pack_field {d : List Word} {i k : Nat} (hi : i < d.length) (hk : k < w) :
    streamBit p.packOrder (pack p w d) (i * w + k) = d[i].getLsbD (valueBit p.packOrder w k) := by
  have hlt := fieldIndex_lt_mul hi hk
  have hdiv : (i * w + k) / w = i := by
    rw [Nat.mul_comm, Nat.mul_add_div (by omega), Nat.div_eq_of_lt hk, Nat.add_zero]
  have hmod : (i * w + k) % w = k := Nat.mul_add_mod_of_lt hk
  rw [streamBit_pack (hlt.trans_le (mul_le_plen _ _)), payloadBit_of_lt hlt, hdiv, hmod,
    List.getD_eq_getElem _ _ hi]

/-- Field `i` of the payload of `d` is value `i`, where that fits the width. -/
theorem field_pack {d : List Word} {i : Nat} (hi : i < d.length) (hv : d[i].toNat < 2 ^ w) :
    wordOfBits (fieldBit p.packOrder w (pack p w d) i) = d[i] := by
  refine BitVec.eq_of_getLsbD_eq fun b hb => ?_
  rw [wordOfBits_getLsbD _ hb]
  rcases Nat.lt_or_ge b w with hin | hout
  · rw [fieldBit_of_lt hin, streamBit_pack_field hi (valueBit_lt _ hin), valueBit_valueBit _ hin]
  · rw [fieldBit_of_le hout, toNat_lt_two_pow_iff.mp hv b hout]

theorem fieldsOf_length (o : PackOrder) (n w : Nat) (bytes : List Byte) : (fieldsOf o n w bytes).length = n := by
  simp [fieldsOf]

theorem fieldsOf_getElem {o : PackOrder} {n i : Nat} {bytes : List Byte} (h : i < (fieldsOf o n w bytes).length) :
    (fieldsOf o n w bytes)[i] = wordOfBits (fieldBit o w bytes i) := by
  simp [fieldsOf]

theorem fieldsOf_pack {d : List Word} (hd : ∀ v ∈ d, v.toNat < 2 ^ w) :
    fieldsOf p.packOrder d.length w (pack p w d) = d :=
  List.ext_getElem (fieldsOf_length _ _ _ _) fun i h hi => by
    rw [fieldsOf_getElem h, field_pack hi (hd _ (List.getElem_mem hi))]

/-- R77: reading inverts packing. -/
theorem unpack_pack {d : List Word} (hd : ∀ v ∈ d, v.toNat < 2 ^ w) :
    unpack p.packOrder d.length w (pack p w d) = .ok d := by
  rw [unpack_eq_fieldsOf (pack_length p w d).ge, fieldsOf_pack hd]

/-- The fields of a payload lie in a stream where the payload's value bits lie (R77). -/
theorem payloadBit_fieldsOf {n q : Nat} {bytes : List Byte} (hw : w ≤ 32) (hq : q < n * w) :
    payloadBit p w (fieldsOf p.packOrder n w bytes) q = streamBit p.packOrder bytes q := by
  have hpos : 0 < w := Nat.pos_of_mul_pos_left (by omega : 0 < n * w)
  have hi : q / w < (fieldsOf p.packOrder n w bytes).length := by
    rw [fieldsOf_length]
    exact (Nat.div_lt_iff_lt_mul hpos).mpr hq
  rw [payloadBit_of_lt (by rwa [fieldsOf_length]), List.getD_eq_getElem _ _ hi, fieldsOf_getElem,
    field_getLsbD_valueBit hw (Nat.mod_lt q hpos), Nat.div_add_mod']

/-- R77: packing the fields of a payload gives its value bits back, and then the build's pad bits. -/
theorem streamBit_pack_fieldsOf {n q : Nat} {bytes : List Byte} (hw : w ≤ 32) (hq : q < 8 * plen n w) :
    streamBit p.packOrder (pack p w (fieldsOf p.packOrder n w bytes)) q =
      if q < n * w then streamBit p.packOrder bytes q else p.padBit := by
  rw [streamBit_pack (by rwa [fieldsOf_length])]
  split
  · next hval => exact payloadBit_fieldsOf hw hval
  · next hpad => exact payloadBit_of_le (by rw [fieldsOf_length]; omega)

end

/-- Settles O17: both directions go through the fields of the payload. -/
theorem writerAndReaderAreInverse : Obligations.WriterAndReaderAreInverse :=
  ⟨fun _ _ _ _ hd => unpack_pack hd, fun _ _ _ _ hw hl =>
    ⟨_, unpack_eq_fieldsOf hl.ge, by rw [pack_length, fieldsOf_length, hl],
      fun _ hq => streamBit_pack_fieldsOf hw hq⟩⟩

/-- Settles O15: the writer's sink after all the values' bits is the width byte and their stream. -/
theorem bitSerialWriterEqualsPack : Obligations.BitSerialWriterEqualsPack := fun p w _ _ h => emitBlock_eq_pack p w h

end Sys2Proof.Machine

/-! The bit-width estimator, the maximum and the written width as least bounds (R70, R80, R83), and the block's room in
`ENC.out` (R81). -/

namespace Sys2Proof.Machine

/-! ## Bit-width estimator -/

/-- R70: the estimator answers the least sufficient width. -/
theorem bitWidth_le_iff {m : BitVec 64} {b : Nat} : bitWidth m ≤ b ↔ m.toNat < 2 ^ b := by
  constructor
  · intro h
    exact (toNat_lt_two_pow_bitWidth m).trans_le (Nat.pow_le_pow_right (by omega) h)
  · intro h
    obtain ⟨-, -, -, hleast⟩ := bitWidthLoop_spec m.toNat 64 0 (by have := m.isLt; omega)
    by_contra hgt
    exact absurd (hleast b (Nat.zero_le b) (Nat.not_le.mp hgt)) (Nat.not_le.mpr h)

theorem bitWidth_eq_zero_iff {m : BitVec 64} : bitWidth m = 0 ↔ m = 0 := by
  rw [← Nat.le_zero, bitWidth_le_iff, Nat.pow_zero, Nat.lt_one_iff, ← BitVec.toNat_inj]
  rfl

/-- Settles O12, by the estimator's least sufficient width. -/
theorem bitWidthIsTheLeastSufficientWidth : Obligations.BitWidthIsTheLeastSufficientWidth := fun m =>
  ⟨toNat_lt_two_pow_bitWidth m, fun _ => bitWidth_le_iff.mpr, bitWidth_eq_zero_iff, bitWidth_le_iff.mpr⟩

/-! ## Maximum and written width -/

theorem maxOf_lt_iff {d : List Word} {b : Nat} (hb : 0 < b) : maxOf d < b ↔ ∀ v ∈ d, v.toNat < b := by
  induction d with
  | nil => exact ⟨fun _ => List.forall_mem_nil _, fun _ => hb⟩
  | cons v vs ih => rw [maxOf_cons, max_lt_iff, ih, List.forall_mem_cons]

theorem le_maxOf {d : List Word} {v : Word} (hv : v ∈ d) : v.toNat ≤ maxOf d :=
  Nat.le_of_lt_succ ((maxOf_lt_iff (Nat.succ_pos _)).mp (Nat.lt_succ_self _) v hv)

/-- R80: the written width is the least that holds every encoded value. -/
theorem widthOf_le_iff {d : List Word} {w : Nat} : widthOf d ≤ w ↔ ∀ v ∈ d, v.toNat < 2 ^ w := by
  have hmax : (BitVec.ofNat 64 (maxOf d)).toNat = maxOf d := by
    have := maxOf_lt d
    rw [BitVec.toNat_ofNat, Nat.mod_eq_of_lt (by omega)]
  rw [widthOf, bitWidth_le_iff, hmax, maxOf_lt_iff (Nat.two_pow_pos w)]

/-- Settles O13, by the least width that holds every value. -/
theorem writtenWidthIsMinimal : Obligations.WrittenWidthIsMinimal := fun d =>
  ⟨widthOf_le d, widthOf_le_iff.mp le_rfl, fun _ => widthOf_le_iff.mpr⟩

theorem maxWord_eq_or (a b : Word) : maxWord a b = a ∨ maxWord a b = b := (ite_eq_or_eq _ b a).symm

theorem foldl_maxWord_eq_or_mem (acc : Word) (values : List Word) :
    values.foldl maxWord acc = acc ∨ values.foldl maxWord acc ∈ values := by
  induction values generalizing acc with
  | nil => exact .inl rfl
  | cons v vs ih =>
    rw [List.foldl_cons, List.mem_cons]
    rcases ih (maxWord acc v) with hacc | hmem
    · rw [hacc]
      exact (maxWord_eq_or acc v).imp_right .inl
    · exact .inr (.inr hmem)

/-- R83: a scan that stays at its initial 0 has seen nothing but zeros. -/
theorem maxScan_mem {values : List Word} (h : values ≠ []) : maxScan values ∈ values := by
  rcases foldl_maxWord_eq_or_mem 0 values with hzero | hmem
  · obtain ⟨v, hv⟩ := List.exists_mem_of_ne_nil values h
    have hscan : maxScan values = 0 := hzero
    have hmax : maxOf values = 0 := by rw [← maxScan_toNat, hscan]; rfl
    have hv0 : v = maxScan values := by
      rw [hscan]
      exact BitVec.eq_of_toNat_eq (Nat.le_zero.mp (hmax ▸ le_maxOf hv))
    exact hv0 ▸ hv
  · exact hmem

/-- Settles O23: the scan's number is the maximum, and the scan ends on a value. -/
theorem maxScanIsTheMaximum : Obligations.MaxScanIsTheMaximum := fun values =>
  ⟨fun _ hv => (le_maxOf hv).trans (maxScan_toNat values).ge, maxScan_mem, maxScan_toNat values⟩

/-! ## Lengths -/

theorem blen_eq_outCap_iff {n w : Nat} : blen n w = outCap n ↔ plen n w = 4 * n := by
  unfold blen outCap
  omega

theorem plen_full (n : Nat) : plen n 32 = 4 * n := by
  unfold plen
  omega

/-- Settles O14: the bound is the capacity bound, and a full payload is four bytes for each value. -/
theorem everyBlockFitsTheOutputBuffer : Obligations.EveryBlockFitsTheOutputBuffer := fun n _ hw =>
  ⟨blen_le_outCap hw, blen_eq_outCap_iff, blen_eq_outCap_iff.mpr (plen_full n)⟩

/-! ## Deltas -/

/-- Settles O19: the transform's maximum is the deltas' one as a word. -/
theorem deltaTransformIsChecked : Obligations.DeltaTransformIsChecked := by
  intro offset values
  refine ⟨fun hsorted => ?_, delta_of_not_sorted⟩
  obtain ⟨m, hrun, hm⟩ := delta_of_sorted hsorted
  rw [hrun, ← hm, BitVec.ofNat_toNat, BitVec.setWidth_eq]

/-- Settles O20: the block written is that of the deltas, of which there are `N`. -/
theorem deltaCompressWritesTheBlock : Obligations.DeltaCompressWritesTheBlock := by
  intro s offset h
  have hblock := block_length_of_wf h
  refine ⟨fun hsorted => ?_, dcomp_of_not_sorted hblock⟩
  have hlen : (blockOf s.params (deltasOf offset s.enc.block)).length =
      1 + plen s.params.n (widthOf (deltasOf offset s.enc.block)) := by
    rw [blockOf_length, deltasOf_length, hblock, blen]
  rw [dcomp_of_sorted hblock (out_length_of_wf h) hsorted, ← hlen]
  rfl

end Sys2Proof.Machine

/-! The checked running sums (R84) as exact sums, and the deltas of a sorted block as the summands of its values
(R82). -/

namespace Sys2Proof.Machine

/-! ## One sum -/

/-- `acc'` is the exact sum of `acc` and `d`. -/
abbrev IsSum (acc d acc' : Word) : Prop := acc'.toNat = acc.toNat + d.toNat

section
variable {acc d acc' : Word}

theorem exists_isSum (h : acc.toNat + d.toNat < 2 ^ 32) : ∃ acc', IsSum acc d acc' :=
  ⟨BitVec.ofNat 32 (acc.toNat + d.toNat), by rw [IsSum, BitVec.toNat_ofNat, Nat.mod_eq_of_lt h]⟩

theorem accum_of_isSum (h : IsSum acc d acc') : accum acc d = .ok acc' := by
  have hlt := acc'.isLt
  rw [accum, if_neg (by omega), ← h, BitVec.ofNat_toNat, BitVec.setWidth_eq]

theorem accum_of_overflow (h : 2 ^ 32 ≤ acc.toNat + d.toNat) : accum acc d = .error (.raised .accumulatorOverflow) :=
  if_pos h

/-! ## The running sums, from their first -/

variable {ds : List Word}

theorem sumUpTo_cons_zero : sumUpTo acc (d :: ds) 0 = acc.toNat + d.toNat := by simp [sumUpTo]

theorem sumUpTo_cons_succ (h : IsSum acc d acc') (i : Nat) :
    sumUpTo acc (d :: ds) (i + 1) = sumUpTo acc' ds i := by
  rw [sumUpTo, sumUpTo, h, List.take_succ_cons, List.map_cons, List.sum_cons, Nat.add_assoc]

theorem sumsFit_cons_iff (h : IsSum acc d acc') : SumsFit acc (d :: ds) ↔ SumsFit acc' ds := by
  constructor
  · intro hfit i hi
    rw [← sumUpTo_cons_succ h]
    exact hfit (i + 1) (Nat.succ_lt_succ hi)
  · intro hfit i hi
    cases i with
    | zero =>
      rw [sumUpTo_cons_zero, ← h]
      exact acc'.isLt
    | succ i =>
      rw [sumUpTo_cons_succ h]
      exact hfit i (Nat.lt_of_succ_lt_succ hi)

theorem sumsOf_cons (h : IsSum acc d acc') : sumsOf acc (d :: ds) = acc' :: sumsOf acc' ds := by
  rw [sumsOf, List.length_cons, List.range_succ_eq_map, List.map_cons, List.map_map, sumUpTo_cons_zero, ← h,
    BitVec.ofNat_toNat, BitVec.setWidth_eq]
  exact congrArg _ (List.map_congr_left fun i _ => congrArg _ (sumUpTo_cons_succ h i))

theorem runningSums_cons (h : IsSum acc d acc') :
    runningSums acc (d :: ds) = runningSums acc' ds >>= fun vs => .ok (acc' :: vs) := by
  rw [runningSums, accum_of_isSum h]
  rfl

end

/-! ## What the running sums answer -/

theorem runningSums_of_fit {acc : Word} {d : List Word} (h : SumsFit acc d) :
    runningSums acc d = .ok (sumsOf acc d) := by
  induction d generalizing acc with
  | nil => rfl
  | cons x ds ih =>
    have hfirst := h 0 (Nat.succ_pos _)
    rw [sumUpTo_cons_zero] at hfirst
    obtain ⟨acc', hsum⟩ := exists_isSum hfirst
    rw [runningSums_cons hsum, ih ((sumsFit_cons_iff hsum).mp h), sumsOf_cons hsum]
    rfl

theorem runningSums_of_not_fit {acc : Word} {d : List Word} (h : ¬ SumsFit acc d) :
    runningSums acc d = .error (.raised .accumulatorOverflow) := by
  induction d generalizing acc with
  | nil => exact absurd (fun i hi => absurd hi (Nat.not_lt_zero i)) h
  | cons x ds ih =>
    rcases Nat.lt_or_ge (acc.toNat + x.toNat) (2 ^ 32) with hfirst | hover
    · obtain ⟨acc', hsum⟩ := exists_isSum hfirst
      rw [runningSums_cons hsum, ih (mt (sumsFit_cons_iff hsum).mpr h)]
      rfl
    · rw [runningSums, accum_of_overflow hover]
      rfl

/-- Settles O22, by induction on the deltas in both cases. -/
theorem runningSumsAreExactOrRaise : Obligations.RunningSumsAreExactOrRaise :=
  fun _ _ => ⟨runningSums_of_fit, runningSums_of_not_fit⟩

/-! ## The deltas of a sorted block -/

/-- A value is the exact sum of its predecessor and its delta (R78). -/
theorem isSum_delta {pred v : Word} (h : pred.toNat ≤ v.toNat) :
    IsSum pred (BitVec.ofNat 32 (v.toNat - pred.toNat)) v := by
  have := v.isLt
  rw [IsSum, BitVec.toNat_ofNat, Nat.mod_eq_of_lt (by omega)]
  omega

theorem sumUpTo_deltasOf {offset : Word} {values : List Word} (h : SortedFrom offset values) {i : Nat}
    (hi : i < values.length) : sumUpTo offset (deltasOf offset values) i = (values.getD i 0).toNat := by
  induction values generalizing offset i with
  | nil => exact absurd hi (Nat.not_lt_zero i)
  | cons v vs ih =>
    obtain ⟨hv, hvs⟩ := (sortedFrom_cons_iff offset v vs).mp h
    rw [deltasOf_cons]
    cases i with
    | zero => exact sumUpTo_cons_zero.trans (isSum_delta hv).symm
    | succ i => exact (sumUpTo_cons_succ (isSum_delta hv) i).trans (ih hvs (Nat.lt_of_succ_lt_succ hi))

theorem sumsFit_deltasOf {offset : Word} {values : List Word} (h : SortedFrom offset values) :
    SumsFit offset (deltasOf offset values) := by
  intro i hi
  rw [deltasOf_length] at hi
  rw [sumUpTo_deltasOf h hi]
  exact BitVec.isLt _

theorem sumsOf_deltasOf {offset : Word} {values : List Word} (h : SortedFrom offset values) :
    sumsOf offset (deltasOf offset values) = values := by
  refine List.ext_getElem (by simp [sumsOf, deltasOf_length]) fun i _ hi => ?_
  simp only [sumsOf, List.getElem_map, List.getElem_range]
  rw [sumUpTo_deltasOf h hi, List.getD_eq_getElem _ _ hi, BitVec.ofNat_toNat, BitVec.setWidth_eq]

/-- Settles O21: the sums of the deltas are the values, so they fit. -/
theorem deltasSumBack : Obligations.DeltasSumBack := fun _ _ hsorted =>
  ⟨fun _ hi => sumUpTo_deltasOf hsorted hi,
    (runningSums_of_fit (sumsFit_deltasOf hsorted)).trans (congrArg _ (sumsOf_deltasOf hsorted))⟩

end Sys2Proof.Machine

/-! The two encoder commands in every case (R90, R91), and the length that a successful compress reports (R92). -/

namespace Sys2Proof.Machine

/-! ## The next state, or the error -/

/-- R50, R52: the block of `n` encoded values is `BLEN` of the written width. -/
theorem blockOf_length_of_length_eq (p : Params) {d : List Word} {n : Nat} (hd : d.length = n) :
    (blockOf p d).length = blen n (widthOf d) := by rw [blockOf_length, hd]

section
variable {s : State}

/-- R91, R113 (D19): an empty operand is answered before its length is compared with `N`. -/
theorem exec_cunsort_of_empty (h0 : len s = 0) : exec .cunsort s = .next (s.raise .enc .emptyInput) :=
  congrArg (finish .enc s) (if_pos h0)

theorem exec_cunsort_of_wrong_length (h0 : len s ≠ 0) (hlen : len s ≠ s.params.n) :
    exec .cunsort s = .next (s.raise .enc .lengthMismatch) :=
  congrArg (finish .enc s) ((if_neg h0).trans (if_pos hlen))

end

/-- Settles O24: there are as many deltas as values, so the block of the deltas is as long as `BLEN` says. -/
theorem csortCompressesSortedBlocks : Obligations.CsortCompressesSortedBlocks := by
  intro s h
  refine ⟨fun hlen hsorted => ?_, exec_csort_of_len_ne, exec_csort_of_not_sorted h⟩
  rw [exec_csort_of_sorted h hlen hsorted,
    ← blockOf_length_of_length_eq s.params ((deltasOf_length (seed s) (vin s)).trans hlen)]
  rfl

/-- Settles O25: the operand has `N` values, so the block of the raw values is as long as `BLEN` says. -/
theorem cunsortCompressesRawBlocks : Obligations.CunsortCompressesRawBlocks := by
  intro s h
  refine ⟨fun hlen => ?_, exec_cunsort_of_empty, exec_cunsort_of_wrong_length⟩
  rw [exec_cunsort_of_len h hlen, ← blockOf_length_of_length_eq s.params (d := vin s) hlen]
  rfl

/-! ## The compressed length -/

/-- Settles O28: the response and the view both measure the block of the encoded values, whose width is legal. -/
theorem compressedLengthDependsOnlyOnTheMaximum : Obligations.CompressedLengthDependsOnlyOnTheMaximum := by
  intro i s t n h hi hrun hok
  obtain ⟨rfl, hblock⟩ := exec_enc_ok h hi hrun hok
  have hblen := blockOf_length_of_length_eq s.params hblock.length
  have hview : (blockOf s.params (encodedValues i s)).length = t.enc.outLen := by
    rw [← hblock.view, view_length (exec_next_wf h hrun)]
  exact ⟨hview, hblen, Nat.succ_pos _, hblen.trans_le (blen_le_outCap (widthOf_le _))⟩

end Sys2Proof.Machine

/-! What the host observes of a command, from two states that agree on the build and the port (R94, R105). -/

namespace Sys2Proof.Machine

/-! ## Same operands, same answer -/

/-- Two states with the same build and the same command on the port. -/
structure SameOperands (s₁ s₂ : State) : Prop where
  params : s₂.params = s₁.params
  port : s₂.port = s₁.port

/-- The host reads the same length and contents of the part (R14, R17). -/
def ShowsSame (part : Target) (t₁ t₂ : State) : Prop :=
  (part = .enc → t₁.enc.outLen = t₂.enc.outLen ∧ t₁.view = t₂.view) ∧
  (part = .dec → t₁.dec.vlen = t₂.dec.vlen ∧ t₁.accessor = t₂.accessor)

/-- Both commands answer, with the same response, and then show the same of their part. -/
def SameAnswer (part : Target) (o₁ o₂ : Host.Outcome State Fault Refusal) : Prop :=
  ∃ t₁ t₂, o₁ = .next t₁ ∧ o₂ = .next t₂ ∧ t₁.response = t₂.response ∧ ShowsSame part t₁ t₂

section
variable {s₁ s₂ : State}

namespace SameOperands

theorem vin_eq (h : SameOperands s₁ s₂) : vin s₂ = vin s₁ := congrArg Command.vals h.port

theorem len_eq (h : SameOperands s₁ s₂) : len s₂ = len s₁ := congrArg List.length h.vin_eq

theorem seed_eq (h : SameOperands s₁ s₂) : seed s₂ = seed s₁ := congrArg Command.offset h.port

theorem cin_eq (h : SameOperands s₁ s₂) : cin s₂ = cin s₁ := congrArg Command.cbytes h.port

theorem readBlock_eq (h : SameOperands s₁ s₂) : readBlock s₂ = readBlock s₁ := by
  unfold readBlock
  rw [h.params, h.cin_eq]

end SameOperands

theorem showsSame_enc (hlen : s₁.enc.outLen = s₂.enc.outLen) (hview : s₁.view = s₂.view) : ShowsSame .enc s₁ s₂ :=
  ⟨fun _ => ⟨hlen, hview⟩, fun h => nomatch h⟩

theorem showsSame_dec (hlen : s₁.dec.vlen = s₂.dec.vlen) (hacc : s₁.accessor = s₂.accessor) : ShowsSame .dec s₁ s₂ :=
  ⟨fun h => (nomatch h), fun _ => ⟨hlen, hacc⟩⟩

/-- After the same block has been written, the encoder shows it, whatever was there before. -/
theorem showsSame_withBlockOf (hp : s₂.params = s₁.params) (d : List Word) :
    ShowsSame .enc (s₁.withBlockOf d) (s₂.withBlockOf d) := by
  refine showsSame_enc ?_ ?_
  · show (blockOf s₁.params d).length = (blockOf s₂.params d).length
    rw [hp]
  · rw [view_withBlockOf, view_withBlockOf, hp]

/-- A failed part is empty, whatever it held before (R121). -/
theorem showsSame_raise (part : Target) (e : ErrorCode) : ShowsSame part (s₁.raise part e) (s₂.raise part e) := by
  cases part with
  | enc => exact showsSame_enc rfl ((view_of_outLen_zero rfl).trans (view_of_outLen_zero rfl).symm)
  | dec => exact showsSame_dec rfl ((accessor_of_vlen_zero rfl).trans (accessor_of_vlen_zero rfl).symm)

namespace SameAnswer
variable {part : Target}

theorem of_raise (e : ErrorCode) : SameAnswer part (.next (s₁.raise part e)) (.next (s₂.raise part e)) :=
  ⟨_, _, rfl, rfl, (response_raise s₁ part e).trans (response_raise s₂ part e).symm, showsSame_raise part e⟩

theorem of_respond (r : Response) (h : ShowsSame part s₁ s₂) :
    SameAnswer part (.next (s₁.respond r)) (.next (s₂.respond r)) :=
  ⟨_, _, rfl, rfl, (response_respond s₁ r).trans (response_respond s₂ r).symm, h⟩

end SameAnswer

/-! ## The encoder's commands -/

theorem csort_sameAnswer (h₁ : s₁.wf = true) (h₂ : s₂.wf = true) (h : SameOperands s₁ s₂) :
    SameAnswer .enc (exec .csort s₁) (exec .csort s₂) := by
  by_cases hlen : len s₁ = s₁.params.n
  · have hlen₂ : len s₂ = s₂.params.n := by rw [h.len_eq, h.params, hlen]
    by_cases hsorted : SortedFrom (seed s₁) (vin s₁)
    · rw [exec_csort_of_sorted h₁ hlen hsorted,
        exec_csort_of_sorted h₂ hlen₂ (by rwa [h.seed_eq, h.vin_eq]), h.seed_eq, h.vin_eq, h.params]
      exact .of_respond _ (showsSame_withBlockOf h.params _)
    · rw [exec_csort_of_not_sorted h₁ hlen hsorted, exec_csort_of_not_sorted h₂ hlen₂ (by rwa [h.seed_eq, h.vin_eq])]
      exact .of_raise _
  · rw [exec_csort_of_len_ne hlen, exec_csort_of_len_ne (by rwa [h.len_eq, h.params])]
    exact .of_raise _

theorem cunsort_sameAnswer (h₁ : s₁.wf = true) (h₂ : s₂.wf = true) (h : SameOperands s₁ s₂) :
    SameAnswer .enc (exec .cunsort s₁) (exec .cunsort s₂) := by
  by_cases hlen : len s₁ = s₁.params.n
  · rw [exec_cunsort_of_len h₁ hlen, exec_cunsort_of_len h₂ (by rw [h.len_eq, h.params, hlen]), h.vin_eq, h.params]
    exact .of_respond _ (showsSame_withBlockOf h.params _)
  · by_cases h0 : len s₁ = 0
    · rw [exec_cunsort_of_empty h0, exec_cunsort_of_empty (h.len_eq.trans h0)]
      exact .of_raise _
    · rw [exec_cunsort_of_wrong_length h0 hlen,
        exec_cunsort_of_wrong_length (by rwa [h.len_eq]) (by rwa [h.len_eq, h.params])]
      exact .of_raise _

/-! ## The decoder's commands -/

/-- Delivering the same `N` values, whatever the slots held. -/
theorem deliver_sameAnswer {values : List Word} (h₁ : s₁.wf = true) (h₂ : s₂.wf = true)
    (hp : s₂.params = s₁.params) (w : Nat) (hl : values.length = s₁.params.n) :
    SameAnswer .dec (finish .dec s₁ (deliver w values s₁)) (finish .dec s₂ (deliver w values s₂)) := by
  have hl₂ : values.length = s₂.params.n := by rw [hp, hl]
  rw [deliver_ok (hl.le.trans (n_le_val_length_of_wf h₁)), deliver_ok (hl₂.le.trans (n_le_val_length_of_wf h₂)), hp]
  exact .of_respond _ (showsSame_dec rfl ((List.take_left' hl).trans (List.take_left' hl).symm))

/-- What both decoder commands share: the same header error, or the same width and `N` fields for the rest (R72). -/
theorem readBlock_sameAnswer {rest₁ rest₂ : Nat × List Word → Run (State × Nat)} (h : SameOperands s₁ s₂)
    (hrest : ∀ w d, d.length = s₁.params.n →
      SameAnswer .dec (finish .dec s₁ (rest₁ (w, d))) (finish .dec s₂ (rest₂ (w, d)))) :
    SameAnswer .dec (finish .dec s₁ (readBlock s₁ >>= rest₁)) (finish .dec s₂ (readBlock s₂ >>= rest₂)) := by
  rw [h.readBlock_eq]
  rcases readBlock_cases s₁ with ⟨-, hr⟩ | ⟨-, hr⟩ | ⟨w, d, -, -, -, hl, hr⟩ <;> rw [hr]
  · exact .of_raise .truncatedInput
  · exact .of_raise .invalidBitWidth
  · exact hrest w d hl

theorem usort_sameAnswer (h₁ : s₁.wf = true) (h₂ : s₂.wf = true) (h : SameOperands s₁ s₂) :
    SameAnswer .dec (exec .usort s₁) (exec .usort s₂) := by
  refine readBlock_sameAnswer h fun w d hl => ?_
  show SameAnswer .dec (finish .dec s₁ (runningSums (seed s₁) d >>= fun values => deliver w values s₁))
    (finish .dec s₂ (runningSums (seed s₂) d >>= fun values => deliver w values s₂))
  rw [h.seed_eq]
  rcases runningSums_cases (seed s₁) d with hr | ⟨values, hr, hv⟩ <;> rw [hr]
  · exact .of_raise .accumulatorOverflow
  · exact deliver_sameAnswer h₁ h₂ h.params w (hv.trans hl)

theorem uunsort_sameAnswer (h₁ : s₁.wf = true) (h₂ : s₂.wf = true) (h : SameOperands s₁ s₂) :
    SameAnswer .dec (exec .uunsort s₁) (exec .uunsort s₂) :=
  readBlock_sameAnswer h fun w _ hl => deliver_sameAnswer h₁ h₂ h.params w hl

end

/-- Settles O42, command by command: the operands decide which case a command takes, and the case what it shows. -/
theorem resultsDependOnlyOnOperands : Obligations.ResultsDependOnlyOnOperands := by
  intro i s₁ s₂ h₁ h₂ hparams hport
  have h : SameOperands s₁ s₂ := ⟨hparams, hport⟩
  show SameAnswer i.target (exec i s₁) (exec i s₂)
  cases i with
  | csort => exact csort_sameAnswer h₁ h₂ h
  | cunsort => exact cunsort_sameAnswer h₁ h₂ h
  | usort => exact usort_sameAnswer h₁ h₂ h
  | uunsort => exact uunsort_sameAnswer h₁ h₂ h

end Sys2Proof.Machine

/-! The two decoder commands in every case (R100, R101): which error, or the whole next state; and what a sorted decode
says of its values. -/

namespace Sys2Proof.Machine

/-! ## Reading the byte operand -/

theorem hdrGet_cons (n : Nat) (b : Byte) (rest : List Byte) :
    hdrGet n (b :: rest) =
      if wMax < b.toNat then .error (.raised .invalidBitWidth)
      else if (b :: rest).length < blen n b.toNat then .error (.raised .truncatedInput) else .ok b.toNat := rfl

section
variable {s : State}

/-- An error of the width-byte reader ends the reading of the block. -/
theorem readBlock_of_hdrGet_error {e : Stop} (h : hdrGet s.params.n (cin s) = .error e) :
    readBlock s = .error e := by
  rw [readBlock, h]
  rfl

theorem readBlock_of_empty (hcin : cin s = []) : readBlock s = .error (.raised .truncatedInput) :=
  readBlock_of_hdrGet_error (by rw [hcin]; rfl)

section
variable {b : Byte} {rest : List Byte}

theorem readBlock_of_illegal_width (hcin : cin s = b :: rest) (hb : wMax < b.toNat) :
    readBlock s = .error (.raised .invalidBitWidth) :=
  readBlock_of_hdrGet_error (by rw [hcin, hdrGet_cons, if_pos hb])

theorem readBlock_of_short (hcin : cin s = b :: rest) (hb : b.toNat ≤ wMax)
    (hshort : clen s < blen s.params.n b.toNat) : readBlock s = .error (.raised .truncatedInput) := by
  have hshort' : (b :: rest).length < blen s.params.n b.toNat := hcin ▸ hshort
  exact readBlock_of_hdrGet_error (by rw [hcin, hdrGet_cons, if_neg (Nat.not_lt.mpr hb), if_pos hshort'])

/-- R72, R76: a whole block of legal width is read as its width and its fields. -/
theorem readBlock_of_whole (hcin : cin s = b :: rest) (hb : b.toNat ≤ wMax)
    (hwhole : blen s.params.n b.toNat ≤ clen s) : readBlock s = .ok (b.toNat, decodedFields s b.toNat) := by
  have hwhole' : blen s.params.n b.toNat ≤ (b :: rest).length := hcin ▸ hwhole
  have hhdr : hdrGet s.params.n (cin s) = .ok b.toNat := by
    rw [hcin, hdrGet_cons, if_neg (Nat.not_lt.mpr hb), if_neg (Nat.not_lt.mpr hwhole')]
  have hpayload : (payload s.params.n b.toNat (cin s)).length = plen s.params.n b.toNat := payload_length hwhole
  rw [readBlock, hhdr]
  show (unpack _ _ _ _ >>= _) = _
  rw [unpack_eq_fieldsOf hpayload.ge]
  rfl

theorem decodedFields_length (w : Nat) : (decodedFields s w).length = s.params.n := fieldsOf_length _ _ _ _

end

/-! ## The two commands, from what `readBlock` answers -/

theorem exec_usort_of_read_error {e : ErrorCode} (h : readBlock s = .error (.raised e)) :
    exec .usort s = .next (s.raise .dec e) := by
  have hbody : usortBody s = .error (.raised e) := by rw [usortBody, h]; rfl
  exact congrArg (finish .dec s) hbody

theorem exec_uunsort_of_read_error {e : ErrorCode} (h : readBlock s = .error (.raised e)) :
    exec .uunsort s = .next (s.raise .dec e) := by
  have hbody : uunsortBody s = .error (.raised e) := by rw [uunsortBody, h]; rfl
  exact congrArg (finish .dec s) hbody

/-- The state after `OK`, with `values` in slots `0 .. N-1` of `DEC.val`; the slots after them are kept (R36). -/
def State.delivered (s : State) (w : Nat) (values : List Word) : State :=
  (s.withValues (values ++ s.dec.val.drop s.params.n) s.params.n).respond (.ok (blen s.params.n w))

section
variable {w : Nat} {values : List Word}

theorem accessor_delivered (hl : values.length = s.params.n) : (s.delivered w values).accessor = values :=
  List.take_left' hl

theorem response_delivered : (s.delivered w values).response = some (.ok (blen s.params.n w)) :=
  response_respond _ _

theorem finish_deliver_eq (h : s.wf = true) (hl : values.length = s.params.n) :
    finish .dec s (deliver w values s) = .next (s.delivered w values) := by
  rw [deliver_ok (hl.le.trans (n_le_val_length_of_wf h)), hl]
  rfl

end

section
variable {w : Nat} {d : List Word}

theorem sumsOf_length (offset : Word) (d : List Word) : (sumsOf offset d).length = d.length := by simp [sumsOf]

theorem usortBody_of_read (hread : readBlock s = .ok (w, d)) :
    usortBody s = runningSums (seed s) d >>= fun values => deliver w values s := by
  rw [usortBody, hread]
  rfl

theorem exec_usort_of_fit (h : s.wf = true) (hread : readBlock s = .ok (w, d)) (hd : d.length = s.params.n)
    (hfit : SumsFit (seed s) d) : exec .usort s = .next (s.delivered w (sumsOf (seed s) d)) := by
  have hbody : usortBody s = deliver w (sumsOf (seed s) d) s := by
    rw [usortBody_of_read hread, runningSums_of_fit hfit]
    rfl
  exact (congrArg (finish .dec s) hbody).trans (finish_deliver_eq h ((sumsOf_length _ _).trans hd))

theorem exec_usort_of_not_fit (hread : readBlock s = .ok (w, d)) (hfit : ¬ SumsFit (seed s) d) :
    exec .usort s = .next (s.raise .dec .accumulatorOverflow) := by
  have hbody : usortBody s = .error (.raised .accumulatorOverflow) := by
    rw [usortBody_of_read hread, runningSums_of_not_fit hfit]
    rfl
  exact congrArg (finish .dec s) hbody

theorem exec_uunsort_of_read (h : s.wf = true) (hread : readBlock s = .ok (w, d)) (hd : d.length = s.params.n) :
    exec .uunsort s = .next (s.delivered w d) := by
  have hbody : uunsortBody s = deliver w d s := by
    rw [uunsortBody, hread]
    rfl
  exact (congrArg (finish .dec s) hbody).trans (finish_deliver_eq h hd)

end

end

/-- Settles O26, by what `readBlock` answers and whether the sums of its fields fit. -/
theorem usortDeliversRunningSums : Obligations.UsortDeliversRunningSums := by
  intro s h
  refine ⟨fun hnil => exec_usort_of_read_error (readBlock_of_empty hnil), fun b rest hcin => ⟨?_, ?_, ?_, ?_⟩⟩
  · exact fun hb => exec_usort_of_read_error (readBlock_of_illegal_width hcin hb)
  · exact fun hb hshort => exec_usort_of_read_error (readBlock_of_short hcin hb hshort)
  · exact fun hb hwhole hfit => exec_usort_of_not_fit (readBlock_of_whole hcin hb hwhole) hfit
  · exact fun hb hwhole hfit =>
      exec_usort_of_fit h (readBlock_of_whole hcin hb hwhole) (decodedFields_length _) hfit

/-- Settles O27, by what `readBlock` answers. -/
theorem uunsortDeliversRawFields : Obligations.UunsortDeliversRawFields := by
  intro s h
  refine ⟨fun hnil => exec_uunsort_of_read_error (readBlock_of_empty hnil), fun b rest hcin => ⟨?_, ?_, ?_⟩⟩
  · exact fun hb => exec_uunsort_of_read_error (readBlock_of_illegal_width hcin hb)
  · exact fun hb hshort => exec_uunsort_of_read_error (readBlock_of_short hcin hb hshort)
  · exact fun hb hwhole => exec_uunsort_of_read h (readBlock_of_whole hcin hb hwhole) (decodedFields_length _)

/-! ## A sorted decode never decreases -/

/-- A command that took an error does not answer `OK`. -/
theorem not_ok_of_raise {o : Host.Outcome State Fault Refusal} {s t : State} {part : Target} {e : ErrorCode} {n : Nat}
    (herr : o = .next (s.raise part e)) (hrun : o = .next t) : t.response ≠ some (.ok n) := by
  cases herr.symm.trans hrun
  rw [response_raise]
  rintro ⟨⟩

/-- An `OK` of `USORT` delivered the running sums of the `N` fields it read, which fit. -/
theorem exec_usort_ok {s t : State} {n : Nat} (h : s.wf = true) (hrun : exec .usort s = .next t)
    (hok : t.response = some (.ok n)) :
    ∃ d, d.length = s.params.n ∧ SumsFit (seed s) d ∧ t.accessor = sumsOf (seed s) d := by
  rcases readBlock_cases s with ⟨-, hread⟩ | ⟨-, hread⟩ | ⟨w, d, -, -, -, hd, hread⟩
  · exact absurd hok (not_ok_of_raise (exec_usort_of_read_error hread) hrun)
  · exact absurd hok (not_ok_of_raise (exec_usort_of_read_error hread) hrun)
  · by_cases hfit : SumsFit (seed s) d
    · cases (exec_usort_of_fit h hread hd hfit).symm.trans hrun
      exact ⟨d, hd, hfit, accessor_delivered ((sumsOf_length _ _).trans hd)⟩
    · exact absurd hok (not_ok_of_raise (exec_usort_of_not_fit hread hfit) hrun)

/-- Running sums that fit never decrease: each adds to the one before. -/
theorem sortedFrom_sumsOf {offset : Word} {d : List Word} (h : SumsFit offset d) :
    SortedFrom offset (sumsOf offset d) := by
  induction d generalizing offset with
  | nil => exact fun i hi => absurd hi (Nat.not_lt_zero i)
  | cons x ds ih =>
    have hfirst := h 0 (Nat.succ_pos _)
    rw [sumUpTo_cons_zero] at hfirst
    obtain ⟨acc', hsum⟩ := exists_isSum hfirst
    rw [sumsOf_cons hsum, sortedFrom_cons_iff]
    exact ⟨(Nat.le_add_right _ _).trans hsum.ge, ih ((sumsFit_cons_iff hsum).mp h)⟩

/-- Settles O31: the accessor is the running sums of `N` fields. -/
theorem sortedDecodeNeverDecreases : Obligations.SortedDecodeNeverDecreases := by
  intro s t n h hrun hok
  obtain ⟨d, hd, hfit, hacc⟩ := exec_usort_ok h hrun hok
  rw [hacc]
  exact ⟨(sumsOf_length _ _).trans hd, sortedFrom_sumsOf hfit⟩

end Sys2Proof.Machine

/-! Compress and uncompress together: the decoder reads back the encoded values of a block (R102, R103), whichever path
the block was made on (R106). -/

namespace Sys2Proof.Machine

/-! ## Reading a block that an encoder wrote -/

/-- Command `i` answers `OK(n)`, and then its accessor is `values`. -/
abbrev Decodes (i : Instr) (u : State) (n : Nat) (values : List Word) : Prop :=
  ∃ v, exec i u = .next v ∧ v.response = some (.ok n) ∧ v.accessor = values

/-- `BITR` on a payload followed by any bytes answers the packed values (R37, R77). -/
theorem unpack_pack_append {p : Params} {w : Nat} {d : List Word} (hd : ∀ v ∈ d, v.toNat < 2 ^ w)
    (tail : List Byte) : unpack p.packOrder d.length w (pack p w d ++ tail) = .ok d := by
  have hlen := pack_length p w d
  have hroom : plen d.length w ≤ (pack p w d ++ tail).length := by
    rw [List.length_append, hlen]
    exact Nat.le_add_right _ _
  rw [← unpack_take hroom, List.take_left' hlen, unpack_pack hd]

section
variable {u : State} {d : List Word} {tail : List Byte}

/-- R50: the block of `N` encoded values, whatever follows it, is read as its width and those values. -/
theorem readBlock_of_blockOf (hcin : cin u = blockOf u.params d ++ tail) (hd : d.length = u.params.n) :
    readBlock u = .ok (widthOf d, d) := by
  have hw : (BitVec.ofNat 8 (widthOf d)).toNat = widthOf d := by
    have := widthOf_le d
    rw [BitVec.toNat_ofNat, Nat.mod_eq_of_lt (by unfold wMax at this; omega)]
  have hroom : plen u.params.n (widthOf d) ≤ (pack u.params (widthOf d) d ++ tail).length := by
    rw [List.length_append, pack_length, hd]
    exact Nat.le_add_right _ _
  have hcons : cin u = BitVec.ofNat 8 (widthOf d) :: (pack u.params (widthOf d) d ++ tail) := hcin
  rw [readBlock_of_block hcons (hw.trans_le (widthOf_le d)) (by rwa [hw]), hw, ← hd,
    unpack_pack_append (widthOf_le_iff.mp le_rfl)]
  rfl

/-- `UUNSORT` on a block answers its encoded values. -/
theorem uunsort_decodes_blockOf (h : u.wf = true) (hcin : cin u = blockOf u.params d ++ tail)
    (hd : d.length = u.params.n) : Decodes .uunsort u (blockOf u.params d).length d := by
  rw [blockOf_length_of_length_eq _ hd]
  exact ⟨_, exec_uunsort_of_read h (readBlock_of_blockOf hcin hd) hd, response_delivered, accessor_delivered hd⟩

/-- `USORT` on a block answers the running sums of its encoded values. -/
theorem usort_decodes_blockOf (h : u.wf = true) (hcin : cin u = blockOf u.params d ++ tail)
    (hd : d.length = u.params.n) (hfit : SumsFit (seed u) d) :
    Decodes .usort u (blockOf u.params d).length (sumsOf (seed u) d) := by
  rw [blockOf_length_of_length_eq _ hd]
  exact ⟨_, exec_usort_of_fit h (readBlock_of_blockOf hcin hd) hd hfit, response_delivered,
    accessor_delivered ((sumsOf_length _ _).trans hd)⟩

end

/-! ## The round trip -/

section
variable {i : Instr} {s t : State} {n : Nat}

/-- `CSORT` answers `OK` only for a sorted block. -/
theorem sorted_of_exec_csort_ok (h : s.wf = true) (hrun : exec .csort s = .next t)
    (hok : t.response = some (.ok n)) : SortedFrom (seed s) (vin s) := by
  by_contra hsorted
  by_cases hlen : len s = s.params.n
  · exact not_ok_of_raise (exec_csort_of_not_sorted h hlen hsorted) hrun hok
  · exact not_ok_of_raise (exec_csort_of_len_ne hlen) hrun hok

/-- An `OK` of an encoder command reports the length of its view (R62, R79, R91). -/
theorem view_length_of_exec_enc_ok (h : s.wf = true) (hi : i.target = .enc) (hrun : exec i s = .next t)
    (hok : t.response = some (.ok n)) : t.view.length = n := by
  obtain ⟨rfl, hblock⟩ := exec_enc_ok h hi hrun hok
  rw [hblock.view]

end

/-- Settles O32: the decoder reads the encoded values, and on the sorted path these deltas sum back to the block. -/
theorem uncompressInvertsCompress : Obligations.UncompressInvertsCompress := by
  intro i s t u n tail h hu hp hi hrun hok hcin hseed
  obtain ⟨rfl, hblock⟩ := exec_enc_ok h hi hrun hok
  rw [hblock.view, ← hp] at hcin
  have hlen := hblock.length.trans (congrArg Params.n hp.symm)
  show Decodes _ _ _ _
  rw [← hp]
  cases i with
  | csort =>
    have hsorted := sorted_of_exec_csort_ok h hrun hok
    have hsums := usort_decodes_blockOf hu hcin hlen (by rw [hseed rfl]; exact sumsFit_deltasOf hsorted)
    rwa [hseed rfl, encodedValues, sumsOf_deltasOf hsorted] at hsums
  | cunsort => exact uunsort_decodes_blockOf hu hcin hlen
  | usort => cases hi
  | uunsort => cases hi

/-- Settles O33: two round trips, the first with the second block as its tail and the second with none. -/
theorem concatenatedBlocksDecodeInOrder : Obligations.ConcatenatedBlocksDecodeInOrder := by
  intro i₁ i₂ s₁ s₂ t₁ t₂ u₁ u₂ n₁ n₂ hs₁ hs₂ hu₁ hu₂ hps₂ hpu₁ hpu₂ hi₁ hi₂ hrun₁ hok₁ hrun₂ hok₂ hcin₁ hcin₂
    hseed₁ hseed₂
  obtain rfl := view_length_of_exec_enc_ok hs₁ hi₁ hrun₁ hok₁
  obtain rfl := view_length_of_exec_enc_ok hs₂ hi₂ hrun₂ hok₂
  have hrest : cin u₂ = t₂.view := by
    rw [hcin₂, hcin₁]
    exact List.drop_left
  obtain ⟨v₁, hv₁, hresp₁, hacc₁⟩ :=
    uncompressInvertsCompress i₁ s₁ t₁ u₁ _ t₂.view hs₁ hu₁ hpu₁ hi₁ hrun₁ hok₁ hcin₁ hseed₁
  obtain ⟨v₂, hv₂, hresp₂, hacc₂⟩ :=
    uncompressInvertsCompress i₂ s₂ t₂ u₂ _ [] hs₂ hu₂ (hpu₂.trans hps₂.symm) hi₂ hrun₂ hok₂
      (hrest.trans (List.append_nil _).symm) hseed₂
  have hnone : takeTail (cin u₂) (.ok t₂.view.length) = [] := by
    rw [hrest]
    exact List.drop_length
  exact ⟨v₁, v₂, hv₁, hresp₁, hacc₁, hv₂, hresp₂, hacc₂, hnone⟩

/-! ## Crossed paths -/

/-- The running sums never decrease, so they all fit exactly when the last one does. -/
theorem sumsFit_iff_total {offset : Word} {d : List Word} :
    SumsFit offset d ↔ offset.toNat + (d.map BitVec.toNat).sum < 2 ^ 32 := by
  induction d generalizing offset with
  | nil => exact ⟨fun _ => offset.isLt, fun _ i hi => absurd hi (Nat.not_lt_zero i)⟩
  | cons x ds ih =>
    rw [List.map_cons, List.sum_cons, ← Nat.add_assoc]
    rcases Nat.lt_or_ge (offset.toNat + x.toNat) (2 ^ 32) with hfirst | hover
    · obtain ⟨acc', hsum⟩ := exists_isSum hfirst
      rw [sumsFit_cons_iff hsum, ih, hsum]
    · refine iff_of_false (fun hfit => ?_) (by omega)
      have hlt := hfit 0 (Nat.succ_pos _)
      rw [sumUpTo_cons_zero] at hlt
      omega

/-- Another seed moves every running sum by the difference (R59). -/
theorem sumUpTo_other_seed (offset offset' : Word) (d : List Word) (i : Nat) :
    sumUpTo offset' d i = sumUpTo offset d i - offset.toNat + offset'.toNat := by
  unfold sumUpTo
  omega

section
variable {offset offset' : Word} {values : List Word}

theorem sumUpTo_deltasOf_other_seed (h : SortedFrom offset values) {i : Nat} (hi : i < values.length) :
    sumUpTo offset' (deltasOf offset values) i = values[i].toNat - offset.toNat + offset'.toNat := by
  rw [sumUpTo_other_seed offset, sumUpTo_deltasOf h hi, List.getD_eq_getElem _ _ hi]

theorem sumsFit_deltasOf_other_seed (h : SortedFrom offset values)
    (hfit : ∀ x ∈ values, x.toNat - offset.toNat + offset'.toNat < 2 ^ 32) :
    SumsFit offset' (deltasOf offset values) := by
  intro i hi
  rw [deltasOf_length] at hi
  rw [sumUpTo_deltasOf_other_seed h hi]
  exact hfit _ (List.getElem_mem hi)

/-- R59: the deltas of a sorted block, summed from another seed, give its values shifted. -/
theorem sumsOf_deltasOf_other_seed (h : SortedFrom offset values)
    (hfit : ∀ x ∈ values, x.toNat - offset.toNat + offset'.toNat < 2 ^ 32) :
    (sumsOf offset' (deltasOf offset values)).map BitVec.toNat =
      values.map fun x => x.toNat - offset.toNat + offset'.toNat := by
  refine List.ext_getElem (by simp [sumsOf_length, deltasOf_length]) fun i _ hi => ?_
  rw [List.length_map] at hi
  simp only [sumsOf, List.getElem_map, List.getElem_range]
  rw [sumUpTo_deltasOf_other_seed h hi, BitVec.toNat_ofNat, Nat.mod_eq_of_lt (hfit _ (List.getElem_mem hi))]

end

/-- Settles O34: each decode answers what it makes of the encoded values, which for `CSORT` are the deltas and for
`CUNSORT` the raw values. -/
theorem crossedPathsDecodeWithoutDetection : Obligations.CrossedPathsDecodeWithoutDetection := by
  intro i s t u n h hu hp hrun hok hcin
  have block (hi : i.target = .enc) : n = (blockOf u.params (encodedValues i s)).length ∧
      cin u = blockOf u.params (encodedValues i s) ++ [] ∧ (encodedValues i s).length = u.params.n := by
    obtain ⟨hn, hblock⟩ := exec_enc_ok h hi hrun hok
    rw [hp, hcin, hblock.view, List.append_nil]
    exact ⟨hn, rfl, hblock.length⟩
  refine ⟨?_, ?_, ?_, ?_⟩
  · rintro rfl
    obtain ⟨rfl, hbytes, hlen⟩ := block rfl
    exact uunsort_decodes_blockOf hu hbytes hlen
  · rintro rfl htotal
    obtain ⟨rfl, hbytes, hlen⟩ := block rfl
    exact usort_decodes_blockOf hu hbytes hlen (sumsFit_iff_total.mpr htotal)
  · rintro rfl htotal
    obtain ⟨-, hbytes, hlen⟩ := block rfl
    exact exec_usort_of_not_fit (readBlock_of_blockOf hbytes hlen)
      (mt sumsFit_iff_total.mp (Nat.not_lt.mpr htotal))
  · rintro rfl hfit
    have hsorted := sorted_of_exec_csort_ok h hrun hok
    obtain ⟨rfl, hbytes, hlen⟩ := block rfl
    obtain ⟨v, hv, hresp, hacc⟩ :=
      usort_decodes_blockOf hu hbytes hlen (sumsFit_deltasOf_other_seed hsorted hfit)
    exact ⟨v, hv, hresp, by rw [hacc]; exact sumsOf_deltasOf_other_seed hsorted hfit⟩

end Sys2Proof.Machine

/-! The tables of the error codes (R62, R111), and which errors each command can raise (R111, R112): in every state, so
also where an access outside a buffer would stop it. -/

namespace Sys2Proof.Machine

/-! ## The response codes, and the idle unit -/

/-- Settles O11: each entry is a row of `rspCode` or of `rspN`. -/
theorem responseCodesAreTheTable : Obligations.ResponseCodesAreTheTable :=
  ⟨fun _ => ⟨rfl, rfl⟩, fun _ => rfl, rfl, rfl, rfl, rfl, rfl, rfl, rfl⟩

theorem fetch_of_idle {s : State} (hp : s.pending = []) : fetch s = .settled s := by rw [fetch, hp]

/-- Settles O6: with an empty list the fetch has settled in the same state. -/
theorem idleUnitHoldsItsState : Obligations.IdleUnitHoldsItsState := fun _ hp => step_of_settled (fetch_of_idle hp)

/-! ## Pseudocode that raises only some errors -/

/-- If the pseudocode raises an error, it is one of these; whether a bounds check fails is left open. -/
def RaisesOnly {α : Type} (errs : List ErrorCode) (r : Run α) : Prop := ∀ e, r = .error (.raised e) → e ∈ errs

namespace RaisesOnly
variable {α β : Type} {errs : List ErrorCode}

theorem ok (a : α) : RaisesOnly errs (.ok a : Run α) := fun _ h => nomatch h

theorem broken (f : Fault) : RaisesOnly errs (.error (.broken f) : Run α) := fun _ h => nomatch h

theorem raised {e : ErrorCode} (he : e ∈ errs) : RaisesOnly errs (.error (.raised e) : Run α) := by
  rintro _ ⟨⟩
  exact he

theorem bind {x : Run α} {k : α → Run β} (hx : RaisesOnly errs x) (hk : ∀ a, RaisesOnly errs (k a)) :
    RaisesOnly errs (x >>= k) :=
  match x with
  | .ok a => hk a
  | .error (.raised e) => raised (hx e rfl)
  | .error (.broken f) => broken f

theorem ite {p : Prop} [Decidable p] {r r' : Run α} (h : RaisesOnly errs r) (h' : RaisesOnly errs r') :
    RaisesOnly errs (if p then r else r') := by
  split
  · exact h
  · exact h'

theorem foldlM {f : β → α → Run β} (h : ∀ b a, RaisesOnly errs (f b a)) (xs : List α) (b : β) :
    RaisesOnly errs (xs.foldlM f b) := by
  induction xs generalizing b with
  | nil => exact ok b
  | cons x xs ih =>
    rw [List.foldlM_cons]
    exact bind (h b x) ih

end RaisesOnly

section
variable {errs : List ErrorCode}

/-! ## Accesses and the writer raise nothing, so their only stop is a fault (R119) -/

theorem memWrite_raisesOnly (m : Memory) (j : Nat) (b : Byte) : RaisesOnly errs (memWrite m j b) :=
  .ite (.ok _) (.broken _)

theorem storeSlots_raisesOnly (slots values : List Word) : RaisesOnly errs (storeSlots slots values) :=
  .ite (.ok _) (.broken _)

theorem bitwBit_raisesOnly (p : Params) (k : Writer) (b : Bool) : RaisesOnly errs (bitwBit p k b) :=
  .ite (.bind (memWrite_raisesOnly _ _ _) fun _ => .ok _) (.ok _)

theorem bitwWrite_raisesOnly (p : Params) (w : Nat) (k : Writer) (v : Word) : RaisesOnly errs (bitwWrite p w k v) :=
  .foldlM (bitwBit_raisesOnly p) _ k

theorem bitwClose_raisesOnly (k : Writer) : RaisesOnly errs (bitwClose k) :=
  .ite (.bind (memWrite_raisesOnly _ _ _) fun _ => .ok _) (.ok _)

theorem emitBlock_raisesOnly (p : Params) (w : Nat) (values : List Word) (out : Memory) :
    RaisesOnly errs (emitBlock p w values out) :=
  .bind (memWrite_raisesOnly _ _ _) fun _ => .bind (.foldlM (bitwWrite_raisesOnly p w) _ _) bitwClose_raisesOnly

variable (s : State)

theorem compressAt_raisesOnly (w : Nat) (d : List Word) : RaisesOnly errs (compressAt w d s) :=
  .bind (emitBlock_raisesOnly _ _ _ _) fun _ => .ok _

theorem deliver_raisesOnly (w : Nat) (values : List Word) : RaisesOnly errs (deliver w values s) :=
  .bind (storeSlots_raisesOnly _ _) fun _ => .ok _

/-! ## The pieces that raise -/

/-- R114: a decrease is the one error of the delta transform. -/
theorem delta_raisesOnly (offset : Word) (block : List Word) :
    RaisesOnly [.precedenceViolation] (delta offset block) := by
  rcases deltaLoop_cases offset 0 block with h | ⟨d, m, h, -⟩ <;> rw [delta, h]
  · exact .raised (List.mem_singleton_self _)
  · exact .ok _

theorem dcomp_raisesOnly (offset : Word) : RaisesOnly [.precedenceViolation] (dcomp offset s) :=
  .bind (delta_raisesOnly _ _) fun (d, _) => .bind (storeSlots_raisesOnly _ _) fun block =>
    compressAt_raisesOnly (s.withBlock block) _ d

/-- R115, R116: reading a block fails on its width byte or on its length. -/
theorem readBlock_raisesOnly (ht : .truncatedInput ∈ errs) (hw : .invalidBitWidth ∈ errs) :
    RaisesOnly errs (readBlock s) := by
  rcases readBlock_cases s with ⟨-, h⟩ | ⟨-, h⟩ | ⟨w, d, -, -, -, -, h⟩ <;> rw [h]
  · exact .raised ht
  · exact .raised hw
  · exact .ok _

/-- R117: an overflow is the one error of the running sums. -/
theorem runningSums_raisesOnly (acc : Word) (d : List Word) (ho : .accumulatorOverflow ∈ errs) :
    RaisesOnly errs (runningSums acc d) := by
  rcases runningSums_cases acc d with h | ⟨vs, h, -⟩ <;> rw [h]
  · exact .raised ho
  · exact .ok _

end

/-! ## The four commands -/

/-- The pseudocode of a command. -/
def bodyOf : Instr → State → Run (State × Nat)
  | .csort => csortBody
  | .cunsort => cunsortBody
  | .usort => usortBody
  | .uunsort => uunsortBody

theorem exec_eq_finish_bodyOf (i : Instr) (s : State) : exec i s = finish i.target s (bodyOf i s) := by
  cases i <;> rfl

/-- The errors that R111 lists for a command. -/
def errorsOf : Instr → List ErrorCode
  | .csort => [.lengthMismatch, .precedenceViolation]
  | .cunsort => [.emptyInput, .lengthMismatch]
  | .usort => [.truncatedInput, .invalidBitWidth, .accumulatorOverflow]
  | .uunsort => [.truncatedInput, .invalidBitWidth]

section
variable {s : State}

/-- With an operand of the right length, `CSORT` can only find a decrease (R90). -/
theorem csortBody_raisesOnly_of_len (hlen : len s = s.params.n) :
    RaisesOnly [.precedenceViolation] (csortBody s) := by
  rw [csortBody, if_neg (not_not_intro hlen)]
  exact .bind (storeSlots_raisesOnly _ _) fun block => dcomp_raisesOnly (s.withBlock block) _

/-- R112 for `CSORT`. -/
theorem csortBody_lengthMismatch_iff :
    csortBody s = .error (.raised .lengthMismatch) ↔ len s ≠ s.params.n := by
  refine ⟨fun h hlen => ?_, fun hlen => if_pos hlen⟩
  cases List.mem_singleton.mp (csortBody_raisesOnly_of_len hlen _ h)

/-- R112 for `CUNSORT`, whose first test is for the empty operand (D19). -/
theorem cunsortBody_lengthMismatch_iff :
    cunsortBody s = .error (.raised .lengthMismatch) ↔ len s ≠ s.params.n ∧ len s ≠ 0 := by
  unfold cunsortBody
  by_cases h0 : len s = 0
  · simp [h0]
  · by_cases hlen : len s = s.params.n
    · rw [if_neg h0, if_neg (not_not_intro hlen)]
      exact ⟨fun h => absurd (compressAt_raisesOnly _ _ _ _ h) List.not_mem_nil, fun ⟨hne, _⟩ => absurd hlen hne⟩
    · simp [h0, hlen]

variable (s)

/-- R111: a command raises only the errors that the table lists for it. -/
theorem bodyOf_raisesOnly (i : Instr) : RaisesOnly (errorsOf i) (bodyOf i s) := by
  cases i with
  | csort =>
    by_cases hlen : len s = s.params.n
    · exact fun e h => List.mem_cons_of_mem _ (csortBody_raisesOnly_of_len hlen e h)
    · rw [bodyOf, csortBody_lengthMismatch_iff.mpr hlen]
      exact .raised (by decide)
  | cunsort => exact .ite (.raised (by decide)) (.ite (.raised (by decide)) (compressAt_raisesOnly s _ _))
  | usort =>
    exact .bind (readBlock_raisesOnly s (by decide) (by decide)) fun (w, d) =>
      .bind (runningSums_raisesOnly _ d (by decide)) (deliver_raisesOnly s w)
  | uunsort =>
    exact .bind (readBlock_raisesOnly s (by decide) (by decide)) fun (w, d) => deliver_raisesOnly s w d

theorem bodyOf_ne_of_not_mem {i : Instr} {e : ErrorCode} (he : e ∉ errorsOf i) : bodyOf i s ≠ .error (.raised e) :=
  fun h => he (bodyOf_raisesOnly s i e h)

end

end Sys2Proof.Machine

/-! What `ERR(e)` says of a command: its pseudocode raised `e`, and the next state is the old one with the error taken
(R110, R121, R122). -/

namespace Sys2Proof.Machine

section
variable {i : Instr} {s t : State} {e : ErrorCode}

/-! ## From the response back to the error -/

/-- A command that answers `ERR(e)` raised `e`, and took it in the state it started from. -/
theorem exec_err (hrun : exec i s = .next t) (herr : t.response = some (.err e)) :
    bodyOf i s = .error (.raised e) ∧ t = s.raise i.target e := by
  rw [exec_eq_finish_bodyOf] at hrun
  rcases finish_next hrun with ⟨s', n, -, rfl⟩ | ⟨e', hbody, rfl⟩
  · cases (response_respond s' _).symm.trans herr
  · cases (response_raise s i.target e').symm.trans herr
    exact ⟨hbody, rfl⟩

theorem response_err_iff (hrun : exec i s = .next t) :
    t.response = some (.err e) ↔ bodyOf i s = .error (.raised e) := by
  refine ⟨fun herr => (exec_err hrun herr).1, fun hbody => ?_⟩
  rw [exec_eq_finish_bodyOf, hbody] at hrun
  cases hrun
  exact response_raise s i.target e

end

/-- Settles O35: the response is what the pseudocode raised, command by command. -/
theorem lengthMismatchExactlyOnWrongLength : Obligations.LengthMismatchExactlyOnWrongLength := by
  refine ⟨fun i s t _ hrun => ?_, rfl⟩
  rw [response_err_iff hrun]
  cases i with
  | csort => simp [bodyOf, csortBody_lengthMismatch_iff]
  | cunsort => simp [bodyOf, cunsortBody_lengthMismatch_iff]
  | usort => simp [bodyOf_ne_of_not_mem s (i := .usort) (e := .lengthMismatch) (by decide)]
  | uunsort => simp [bodyOf_ne_of_not_mem s (i := .uunsort) (e := .lengthMismatch) (by decide)]

/-- Settles O36: the error is in the command's row, and the table read by errors is the table read by commands. -/
theorem eachErrorComesOnlyFromItsCommands : Obligations.EachErrorComesOnlyFromItsCommands := by
  intro i s t e hrun herr
  have hmem : e ∈ errorsOf i := bodyOf_raisesOnly s i e (exec_err hrun herr).1
  cases i with
  | csort =>
    obtain rfl | rfl := List.mem_pair.mp hmem
    exacts [.inl rfl, rfl]
  | cunsort =>
    obtain rfl | rfl := List.mem_pair.mp hmem
    exacts [rfl, .inr rfl]
  | usort =>
    obtain rfl | hmem := List.mem_cons.mp hmem
    · exact .inl rfl
    · obtain rfl | rfl := List.mem_pair.mp hmem
      exacts [.inl rfl, rfl]
  | uunsort =>
    obtain rfl | rfl := List.mem_pair.mp hmem
    exacts [.inr rfl, .inr rfl]

/-! ## The state an error leaves -/

/-- Settles O37: the next state is the old one with the error taken. -/
theorem anErrorEmptiesOnlyItsPart : Obligations.AnErrorEmptiesOnlyItsPart := by
  intro i s t e hrun herr
  obtain ⟨-, rfl⟩ := exec_err hrun herr
  have hside := sameHostSide_raise s i.target e
  refine ⟨fun henc => ?_, fun hdec => ?_, hside.rsps, rfl, hside.params, hside.port, hside.pending⟩
  · rw [henc]
    exact ⟨rfl, view_of_outLen_zero rfl, rfl⟩
  · rw [hdec]
    exact ⟨rfl, accessor_of_vlen_zero rfl, rfl⟩

/-- Settles O38: the error kept the form, the build and the port, and on these alone the response depends (R94,
R105). -/
theorem aRetryFailsIdentically : Obligations.ARetryFailsIdentically := by
  intro i s t e h hrun herr
  obtain ⟨-, rfl⟩ := exec_err hrun herr
  have hside := sameHostSide_raise s i.target e
  obtain ⟨t₁, u, hrun₁, hretry, hresp, -⟩ :=
    resultsDependOnlyOnOperands i s _ h (raise_wf h i.target e) hside.params hside.port
  cases hrun.symm.trans hrun₁
  exact ⟨u, hretry, hresp.symm.trans herr⟩

end Sys2Proof.Machine

/-! No command, no step and no run from a well-formed state ends in a fault (R119, R124, R133). -/

namespace Sys2Proof.Machine

/-- Settles O46: each command ends well in a well-formed state. -/
theorem noCommandEverFaults : Obligations.NoCommandEverFaults := fun i _ h =>
  (exec_wf i h).imp fun _ ht => ht.1

/-- An outcome that is no fault, and that is well formed if it is a next state. -/
def KeepsForm (o : Host.Outcome State Fault Refusal) : Prop :=
  (∀ f, o ≠ .fault f) ∧ ∀ t, o = .next t → t.wf = true

namespace KeepsForm

theorem next {t : State} (h : t.wf = true) : KeepsForm (.next t) := by
  refine ⟨fun _ hf => (nomatch hf), ?_⟩
  rintro _ ⟨⟩
  exact h

theorem refused (r : Refusal) : KeepsForm (.refused r) := ⟨fun _ hf => (nomatch hf), fun _ ht => nomatch ht⟩

end KeepsForm

section
variable {s : State}

/-- A command that is run was put on the port, with the list moved on (R40). -/
theorem fetch_run {i : Instr} {s' : State} (h : fetch s = .run i s') : ∃ c rest, s' = s.present c rest := by
  unfold fetch fetchCommand at h
  split at h
  case h_1 => cases h
  case h_2 c rest _ =>
    split at h
    · split at h
      · cases h
        exact ⟨c, rest, rfl⟩
      · cases h
    · cases h
  case h_3 => cases h
  case h_4 => cases h

theorem step_keepsForm (h : s.wf = true) : KeepsForm (step s) := by
  refine ⟨fun f hf => ?_, fun t => everyStepKeepsTheForm s t h⟩
  cases hfetch : fetch s with
  | run i s' =>
    obtain ⟨c, rest, rfl⟩ := fetch_run hfetch
    obtain ⟨t, ht⟩ := noCommandEverFaults i _ (present_wf c rest h)
    rw [step_of_run hfetch, ht] at hf
    cases hf
  | settled s' =>
    rw [step_of_settled hfetch] at hf
    cases hf
  | refuse r =>
    rw [step, hfetch] at hf
    cases hf

/-! ## Runs -/

section
variable {M : Host.Core} {u : M.State}

theorem run_succ_of_next {u' : M.State} (k : Nat) (h : M.step u = .next u') : M.run (k + 1) u = M.run k u' := by
  rw [Host.Core.run, h]

theorem run_succ_of_refused {r : M.Refusal} (k : Nat) (h : M.step u = .refused r) : M.run (k + 1) u = .refused r := by
  rw [Host.Core.run, h]

end

/-- The induction over a run: each step keeps the form, or ends the run with a refusal. -/
theorem run_keepsForm (k : Nat) (h : s.wf = true) : KeepsForm (core.run k s) := by
  induction k generalizing s with
  | zero => exact .next h
  | succ k ih =>
    obtain ⟨hfault, hnext⟩ := step_keepsForm h
    cases hstep : step s with
    | next s' =>
      have hrun : core.run (k + 1) s = core.run k s' := run_succ_of_next k hstep
      rw [hrun]
      exact ih (hnext s' hstep)
    | fault f => exact absurd hstep (hfault f)
    | refused r =>
      have hrun : core.run (k + 1) s = .refused r := run_succ_of_refused k hstep
      rw [hrun]
      exact .refused r

end

/-- Settles O47, by the induction over the run. -/
theorem noRunFaults : Obligations.NoRunFaults := fun k _ h => run_keepsForm k h

end Sys2Proof.Machine

/-! What a step makes of a host's reset between commands (R141), and of what it refuses: a broken host rule (R142, R146,
R147) and an operand that does not fit its length port (R61). -/

namespace Sys2Proof

/-- The length port that counts is the one of the part the command is addressed to (R61). -/
theorem Command.wf_eq_false_iff {p : Params} {i : Instr} {c : Command} :
    c.wf p i = false ↔
      i.target = .enc ∧ 2 ^ p.lw ≤ c.vals.length ∨ i.target = .dec ∧ 2 ^ p.lw ≤ c.cbytes.length := by
  cases i <;> simp [Command.wf, Instr.target]

end Sys2Proof

namespace Sys2Proof.Machine

section
variable {s : State} {rest : List HostEvent}

/-! ## A reset between commands -/

theorem fetch_of_reset (hp : s.pending = .reset :: rest) :
    fetch s = .settled { s with pending := rest }.resetUnit := by rw [fetch, hp]

/-! ## Refusals -/

theorem fetch_of_breach {b : HostBreach} (hp : s.pending = .breach b :: rest) :
    fetch s = .refuse (.hostBreach b) := by rw [fetch, hp]

theorem fetchCommand_of_not_wf {c : Command} {i : Instr} (hd : decodeOp c.op = .ok i)
    (hwf : c.wf s.params i = false) : fetchCommand s c rest = .refuse .operandTooLong := by
  rw [fetchCommand, hd]
  exact if_neg (ne_true_of_eq_false hwf)

theorem step_of_refuse {r : Refusal} (h : fetch s = .refuse r) : step s = .refused r := by rw [step, h]

end

/-- Settles O7: the fetch has settled in the reset unit, whose lengths are 0, with only the list moved on. -/
theorem resetBetweenCommandsEmptiesBothParts : Obligations.ResetBetweenCommandsEmptiesBothParts :=
  fun _ _ hp => ⟨_, step_of_settled (fetch_of_reset hp), rfl, rfl, view_of_outLen_zero rfl, accessor_of_vlen_zero rfl,
    rfl, rfl, rfl, rfl, rfl⟩

/-- Settles O9: the fetch refuses a breach by its name, and a command whose operand does not fit before it is run. -/
theorem hostBreachesAreRefused : Obligations.HostBreachesAreRefused :=
  ⟨fun _ _ _ hp => step_of_refuse (fetch_of_breach hp),
    fun _ _ _ _ hp hd hlong => step_of_refuse
      ((fetch_of_present hp).trans (fetchCommand_of_not_wf hd (Command.wf_eq_false_iff.mpr hlong)))⟩

end Sys2Proof.Machine
